-- ==== Sys2Proof/Word.lean ====
section
/-! DEFINITION. The word types of the RF5V-CORE interface (30_encoding.md R47, R53). -/

namespace Sys2Proof

/-- A byte of the payload buffer, and the 8-bit fields A, D, OPC and ST. -/
abbrev Byte := BitVec 8

/-- The command word CMD and the 32-bit registers. -/
abbrev Word := BitVec 32

/-- The operand words OPA and OPB, a timestamp, and RESULT. -/
abbrev DWord := BitVec 64

end Sys2Proof
end

