-- ==== Sys2Proof/Syntax.lean ====
section
/-! DEFINITION. The commands of RF5V-CORE as terms: one constructor of `Instr` per row of
spec/opcode_table.json, with the command word's operands already read (30_encoding.md R47 to R54). -/

namespace Sys2Proof

/-- One command transaction (R47): three words. -/
structure Command where
  cmd : Word
  opa : DWord
  opb : DWord
deriving DecidableEq, Repr

/-- The direction of an edge (R52, D45): Up is rising. -/
inductive Direction where
  | down
  | up
deriving DecidableEq, Repr

/-- Where FC_SERIALIZE sends its bits (R66, CMD bit R): the BIT channel or the Manchester encoder. -/
inductive Sink where
  | bits
  | line
deriving DecidableEq, Repr

/-- Where MC_DECODE_EDGE sends a recovered bit (R73, CMD bit R): the BIT channel or the frame codec. -/
inductive Route where
  | channel
  | frame
deriving DecidableEq, Repr

/-- The commands (R49), in the order of spec/opcode_table.json. -/
inductive Instr where
  /-- FC_CONSUME_BIT b (R62). -/
  | fcConsumeBit (b : Bool)
  /-- FC_RESET (R63). -/
  | fcReset
  /-- FC_IS_VALID (R64). -/
  | fcIsValid
  /-- FC_BUILD len (R65). -/
  | fcBuild (len : Byte)
  /-- FC_SERIALIZE sink (R66). -/
  | fcSerialize (sink : Sink)
  /-- MC_CONFIG h, s (R68): all 64 bits of OPA and OPB. -/
  | mcConfig (h s : DWord)
  /-- MC_ENCODE_BIT b (R70). -/
  | mcEncodeBit (b : Bool)
  /-- MC_DECODE_EDGE dir, route, ts (R73). -/
  | mcDecodeEdge (dir : Direction) (route : Route) (ts : DWord)
  /-- PB_WRITE idx, byte (R75). -/
  | pbWrite (idx byte : Byte)
  /-- PB_READ idx (R76). -/
  | pbRead (idx : Byte)
  /-- REG_READ sel (R77). -/
  | regRead (sel : Byte)
deriving DecidableEq, Repr

/-- The status ST of a response (60_exceptions.md R78). -/
inductive Status where
  | ok
  | illegalOpcode
  | reservedField
  | badArg
  | notConfigured
  | badState
  | configInvalid
deriving DecidableEq, Repr

/-- The code of a status (R78); codes 7 to 255 are never returned. -/
def Status.code : Status → Byte
  | .ok => 0
  | .illegalOpcode => 1
  | .reservedField => 2
  | .badArg => 3
  | .notConfigured => 4
  | .badState => 5
  | .configInvalid => 6

/-- One response (R53). -/
structure Response where
  st : Status
  result : DWord
deriving DecidableEq, Repr

end Sys2Proof
end

