-- ==== Sys2Proof/Decode.lean ====
section
/-! DEFINITION. The command decoder, total on every command word (30_encoding.md R50), and the
encoder after it, both written from the opcode map R49, the field layout R48 and the masks of R50. -/

namespace Sys2Proof

/-- Why a command word is rejected before it has operands (R50, R51). -/
inductive DecodeError where
  /-- OPC is not in the table of R49: E_ILLEGAL_OPCODE. -/
  | illegalOpcode
  /-- A CMD bit outside OPC and the opcode's used fields is 1: E_RESERVED_FIELD. -/
  | reservedField
deriving DecidableEq, Repr

/-- The assigned operation codes (R49), in the order of spec/opcode_table.json. -/
inductive Opcode where
  | fcConsumeBit | fcReset | fcIsValid | fcBuild | fcSerialize
  | mcConfig | mcEncodeBit | mcDecodeEdge
  | pbWrite | pbRead | regRead
deriving DecidableEq, Repr

/-- The value of OPC (R49). -/
def Opcode.code : Opcode → Byte
  | .fcConsumeBit => 0x10
  | .fcReset => 0x11
  | .fcIsValid => 0x12
  | .fcBuild => 0x13
  | .fcSerialize => 0x14
  | .mcConfig => 0x01
  | .mcEncodeBit => 0x02
  | .mcDecodeEdge => 0x03
  | .pbWrite => 0x20
  | .pbRead => 0x21
  | .regRead => 0x30

/-- The CMD bits that are fixed for the opcode (R50): OPC and every unused bit. -/
def Opcode.mask : Opcode → Word
  | .fcConsumeBit => 0xFEFFFFFF
  | .fcReset => 0xFFFFFFFF
  | .fcIsValid => 0xFFFFFFFF
  | .fcBuild => 0xFFFF00FF
  | .fcSerialize => 0xFDFFFFFF
  | .mcConfig => 0xFFFFFFFF
  | .mcEncodeBit => 0xFEFFFFFF
  | .mcDecodeEdge => 0xFCFFFFFF
  | .pbWrite => 0xFF0000FF
  | .pbRead => 0xFFFF00FF
  | .regRead => 0xFFFF00FF

/-- The value the fixed bits must have (R50): OPC, and 0 elsewhere. -/
def Opcode.matchWord (o : Opcode) : Word := o.code.setWidth 32

/-- Every assigned opcode (R49). -/
def Opcode.all : List Opcode :=
  [.fcConsumeBit, .fcReset, .fcIsValid, .fcBuild, .fcSerialize,
   .mcConfig, .mcEncodeBit, .mcDecodeEdge, .pbWrite, .pbRead, .regRead]

/-- The opcode an OPC value names, if it is assigned (R51). -/
def Opcode.ofCode? (x : Byte) : Option Opcode := Opcode.all.find? fun o => o.code == x

/-- OPC = CMD[7:0] (R48). -/
def Command.opc (c : Command) : Byte := c.cmd.extractLsb' 0 8

/-- A = CMD[15:8] (R48, R52). -/
def Command.a (c : Command) : Byte := c.cmd.extractLsb' 8 8

/-- D = CMD[23:16] (R48, R52). -/
def Command.d (c : Command) : Byte := c.cmd.extractLsb' 16 8

/-- B = CMD[24] (R48, R52). -/
def Command.b (c : Command) : Bool := c.cmd.getLsbD 24

/-- R = CMD[25] (R48, R52). -/
def Command.r (c : Command) : Bool := c.cmd.getLsbD 25

/-- The direction a B bit means (R52, D45). -/
def Direction.ofBit : Bool → Direction
  | true => .up
  | false => .down

/-- The bit an edge's direction carries (R73): Up is 1, Down is 0. -/
def Direction.bit : Direction → Bool
  | .up => true
  | .down => false

/-- The sink an R bit selects (R48, R66). -/
def Sink.ofBit : Bool → Sink
  | true => .line
  | false => .bits

/-- The R bit of a sink (R57). -/
def Sink.bit : Sink → Bool
  | .line => true
  | .bits => false

/-- The route an R bit selects (R48, R73). -/
def Route.ofBit : Bool → Route
  | true => .frame
  | false => .channel

/-- The R bit of a route (R57). -/
def Route.bit : Route → Bool
  | .frame => true
  | .channel => false

/-- The operation of an accepted command, its operands read from the fields R49 names. -/
def Opcode.instr (o : Opcode) (c : Command) : Instr :=
  match o with
  | .fcConsumeBit => .fcConsumeBit c.b
  | .fcReset => .fcReset
  | .fcIsValid => .fcIsValid
  | .fcBuild => .fcBuild c.a
  | .fcSerialize => .fcSerialize (Sink.ofBit c.r)
  | .mcConfig => .mcConfig c.opa c.opb
  | .mcEncodeBit => .mcEncodeBit c.b
  | .mcDecodeEdge => .mcDecodeEdge (Direction.ofBit c.b) (Route.ofBit c.r) c.opa
  | .pbWrite => .pbWrite c.a c.d
  | .pbRead => .pbRead c.a
  | .regRead => .regRead c.a

/-- The opcode of a command (R49). -/
def Instr.opcode : Instr → Opcode
  | .fcConsumeBit _ => .fcConsumeBit
  | .fcReset => .fcReset
  | .fcIsValid => .fcIsValid
  | .fcBuild _ => .fcBuild
  | .fcSerialize _ => .fcSerialize
  | .mcConfig _ _ => .mcConfig
  | .mcEncodeBit _ => .mcEncodeBit
  | .mcDecodeEdge _ _ _ => .mcDecodeEdge
  | .pbWrite _ _ => .pbWrite
  | .pbRead _ => .pbRead
  | .regRead _ => .regRead

/-- The decoder (R50): an unassigned OPC first, then a fixed bit that is wrong, then the operation. -/
def decode (c : Command) : Except DecodeError Instr :=
  match Opcode.ofCode? c.opc with
  | none => .error .illegalOpcode
  | some o => if c.cmd &&& o.mask = o.matchWord then .ok (o.instr c) else .error .reservedField

/-- A CMD word from its fields (R48), the reserved bits 0: `0 : R : B : D : A : OPC`. -/
def cmdWord (o : Opcode) (a d : Byte) (b r : Bool) : Word :=
  0#6 ++ (BitVec.ofBool r ++ (BitVec.ofBool b ++ (d ++ (a ++ o.code))))

/-- The words of a command (R48, R49, R57): 0 in every field and operand word the command does not use. -/
def encode : Instr → Command
  | .fcConsumeBit b => ⟨cmdWord .fcConsumeBit 0 0 b false, 0, 0⟩
  | .fcReset => ⟨cmdWord .fcReset 0 0 false false, 0, 0⟩
  | .fcIsValid => ⟨cmdWord .fcIsValid 0 0 false false, 0, 0⟩
  | .fcBuild len => ⟨cmdWord .fcBuild len 0 false false, 0, 0⟩
  | .fcSerialize sink => ⟨cmdWord .fcSerialize 0 0 false sink.bit, 0, 0⟩
  | .mcConfig h s => ⟨cmdWord .mcConfig 0 0 false false, h, s⟩
  | .mcEncodeBit b => ⟨cmdWord .mcEncodeBit 0 0 b false, 0, 0⟩
  | .mcDecodeEdge dir route ts => ⟨cmdWord .mcDecodeEdge 0 0 dir.bit route.bit, ts, 0⟩
  | .pbWrite idx byte => ⟨cmdWord .pbWrite idx byte false false, 0, 0⟩
  | .pbRead idx => ⟨cmdWord .pbRead idx 0 false false, 0, 0⟩
  | .regRead sel => ⟨cmdWord .regRead sel 0 false false, 0, 0⟩

/-- The command of an instruction's bits, numbered as spec/opcode_table.json numbers them: CMD is bits
31..0, OPA bits 95..32, OPB bits 159..96 (R47 gives the words' order), every bit at nbits and above 0. -/
def commandOfBits (nbits w : Nat) : Command :=
  let v := w % 2 ^ nbits
  { cmd := BitVec.ofNat 32 v, opa := BitVec.ofNat 64 (v / 2 ^ 32), opb := BitVec.ofNat 64 (v / 2 ^ 96) }

/-- What the decoder reads from a table word; none where it rejects. -/
def decodeTableWord (nbits w : Nat) : Option Instr :=
  match decode (commandOfBits nbits w) with
  | .ok i => some i
  | .error _ => none

end Sys2Proof
end

