-- ==== Sys2Proof/Config.lean ====
section
/-! DEFINITION. The build-time parameters of RF5V-CORE (00_scope.md R7, R8). -/

namespace Sys2Proof

/-- PREAMBLE_BYTES and PREAMBLE_CONST together (R7): N is 1, 2, 3 or 4 and the constant is any value
below 2^(8·N), so each width carries a constant of exactly that width. -/
inductive Preamble where
  | n1 (const : BitVec 8)
  | n2 (const : BitVec 16)
  | n3 (const : BitVec 24)
  | n4 (const : BitVec 32)
deriving DecidableEq, Repr, Inhabited

/-- N = PREAMBLE_BYTES (R7). -/
def Preamble.bytes : Preamble → Nat
  | .n1 _ => 1
  | .n2 _ => 2
  | .n3 _ => 3
  | .n4 _ => 4

/-- PREAMBLE_CONST (R7), zero-extended to the widest preamble register. -/
def Preamble.const : Preamble → Word
  | .n1 c => c.setWidth 32
  | .n2 c => c.setWidth 32
  | .n3 c => c.setWidth 32
  | .n4 c => c

/-- The parameters of the instance after reset. The spec gives no value (R7, D20, D21: OPEN; N3: no
constant may be assumed), so this constant has no body and nothing can be proved of its value.
DESIGN CHOICE, safe (log entry 2). -/
opaque Config.preamble : Preamble

end Sys2Proof
end

