-- ==== Sys2Proof/Machine/State.lean ====
section
/-! DEFINITION. The state of one RF5V-CORE instance as plain data: every register of 10_state.md, the
payload buffer, the hidden position of a blocking command (R32), and the model's own two queues that
join the block to its surroundings (log entry 1). -/

namespace Sys2Proof.Machine

/-- The payload buffer PBUF (R22, R34): (index, byte) pairs, indices strictly rising, no zero byte
listed; an index that is not listed reads 0, the reset contents R22 gives. -/
abbrev Memory := List Host.Cell

/-- The frame stage (R16); the codes 5, 6 and 7 are never held. -/
inductive Stage where
  | preamble
  | size
  | data
  | checksum
  | done
deriving DecidableEq, Repr

/-- The encoding of STAGE (R16, D31). -/
def Stage.code : Stage → BitVec 3
  | .preamble => 0
  | .size => 1
  | .data => 2
  | .checksum => 3
  | .done => 4

/-- The frame codec's registers and buffer (R16 to R22). -/
structure Frame where
  /-- STAGE (R16). -/
  stage : Stage
  /-- PRE, 8·N bits (R18), zero-extended to 32 (log entry 3). -/
  pre : Word
  /-- SIZE (R19). -/
  size : Byte
  /-- CSUM (R20). -/
  csum : Word
  /-- BITPOS (R21). -/
  bitpos : BitVec 11
  /-- PBUF (R22). -/
  pbuf : Memory
deriving DecidableEq, Repr

/-- The Manchester line codec's registers and flags (R24 to R30). -/
structure Mlc where
  /-- H (R24). -/
  halfPeriod : Word
  /-- S (R25). -/
  sensitivity : Word
  /-- PREV (R26). -/
  prev : Bool
  /-- SYNC_V (R27). -/
  syncV : Bool
  /-- LAST_TS (R28). -/
  lastTs : DWord
  /-- CFG_OK (R29). -/
  cfgOk : Bool
  /-- ORD_ERR (R30). -/
  ordErr : Bool
deriving DecidableEq, Repr

/-- One entry of a blocking command's event list, in the order EncodeBit's pseudocode runs (R69): a
write of PREV, a SIG event, or a SLEEP request that is awaited. -/
inductive LineOp where
  | setPrev (b : Bool)
  | sig (level : Bool)
  | sleep
deriving DecidableEq, Repr

/-- What the surroundings send (R12, R86, R93): a command on the port, the completion of a SLEEP
request by the external timer, or the reset input RST. -/
inductive Input where
  | command (c : Command)
  | sleepDone
  | reset
deriving DecidableEq, Repr

/-- An input that reaches the block past commands waiting at the port: a SLEEP completion or RST. -/
inductive Signal where
  | sleepDone
  | reset
deriving DecidableEq, Repr

/-- What the block produces (R10, R53): events on the SIG, BIT and SLEEP channels, and responses. -/
inductive Output where
  | sig (level : Bool)
  | bit (b : Bool)
  | sleep
  | response (r : Response)
deriving DecidableEq, Repr

/-- Everything one instance holds. -/
structure State where
  /-- PREAMBLE_BYTES and PREAMBLE_CONST, fixed for the life of the instance (R8). -/
  preamble : Preamble
  /-- The frame codec. -/
  fc : Frame
  /-- The Manchester line codec. -/
  mlc : Mlc
  /-- The hidden position of R32: the rest of the blocking command's event list, from the event after
  the SLEEP that is awaited; none while no command is blocked. -/
  blocked : Option (List LineOp)
  /-- The model's own: what the surroundings still send, in arrival order (log entry 1). -/
  inputs : List Input
  /-- The model's own: what the block has produced, oldest first (log entry 1). -/
  outputs : List Output
deriving DecidableEq, Repr

/-- Reasons a step stops with a fault. Command errors are NOT among them: they are responses (R78). -/
inductive Fault where
  /-- Raised by `step`: a SLEEP completion arrives while no SLEEP request is outstanding. The timer's
  contract completes requests only (R86); the spec gives no effect. Safe (log entry 5). -/
  | unrequestedSleepDone
  /-- Raised by FC_CONSUME_BIT and MC_DECODE_EDGE with route 1: the bit would index PBUF past 254 or take
  BITPOS past its 11 bits. R21 rules such a state out. Safe (log entry 6). -/
  | frameOverrun
  /-- Raised by MC_DECODE_EDGE: the classifier would divide by H = 0 with CFG_OK = 1. R24 rules such a
  state out. Safe (log entry 6). -/
  | zeroHalfPeriod
deriving DecidableEq, Repr

/-- Reasons the model gives no meaning. -/
inductive Refusal where
  /-- Raised by an arm of `exec` that has no meaning yet: safe. No arm of this model raises it. -/
  | notModelled (mnemonic : String)
deriving DecidableEq, Repr

/-- The freshly created Frame (R59): every frame register and all 255 bytes of PBUF 0. -/
def Frame.empty : Frame :=
  { stage := .preamble, pre := 0, size := 0, csum := 0, bitpos := 0, pbuf := [] }

/-- The Manchester registers and flags after hardware reset (R93). -/
def Mlc.empty : Mlc :=
  { halfPeriod := 0, sensitivity := 0, prev := false, syncV := false, lastTs := 0,
    cfgOk := false, ordErr := false }

/-- The machine right after hardware reset (R93, R94), with nothing sent to it yet. -/
def State.reset : State :=
  { preamble := Config.preamble, fc := Frame.empty, mlc := Mlc.empty, blocked := none,
    inputs := [], outputs := [] }

end Sys2Proof.Machine
end

