-- ==== Sys2Proof/Machine/Ops.lean ====
section
/-! DEFINITION. The operations the commands share: bits and fields, PBUF, events and responses, the
one way a command ends in an error, the resets, and the running of a blocking command. -/

namespace Sys2Proof.Machine

/-- `(v : b)[w-1:0]` (R9): shift b into the low end of a w-bit value and drop its top bit. -/
def shiftIn {w : Nat} (v : BitVec w) (b : Bool) : BitVec w := (v ++ BitVec.ofBool b).setWidth w

/-- `bitsMSB(v, w)` (R10): the w bits of v from bit w-1 down to bit 0. -/
def bitsMSB {n : Nat} (v : BitVec n) : Nat → List Bool
  | 0 => []
  | w + 1 => v.getLsbD w :: bitsMSB v w

/-- Shift a bit into the 8·N-bit register PRE (R18): the low 8·N bits of `PRE : b`. -/
def shiftPre (p : Preamble) (pre : Word) (b : Bool) : Word :=
  ((pre ++ BitVec.ofBool b).setWidth (8 * p.bytes)).setWidth 32

/-- PBUF[i] (R10); an index that is not listed reads 0 (R22). -/
def Memory.read : Memory → Nat → Byte
  | [], _ => 0
  | (k, v) :: m, i => if k = i then v else Memory.read m i

/-- PBUF[i] <- v (R10), keeping the list's indices rising and leaving out bytes that are 0. -/
def Memory.write : Memory → Nat → Byte → Memory
  | [], i, v => if v = 0 then [] else [(i, v)]
  | (k, u) :: m, i, v =>
    if i < k then (if v = 0 then (k, u) :: m else (i, v) :: (k, u) :: m)
    else if i = k then (if v = 0 then m else (i, v) :: m)
    else (k, u) :: Memory.write m i v

/-- The canonical form of PBUF: indices strictly rising and below 255 (R34), no zero byte listed. -/
abbrev Memory.wf (m : Memory) : Prop :=
  m.Pairwise (fun x y => x.1 < y.1) ∧ ∀ c ∈ m, c.1 < 255 ∧ c.2 ≠ 0

/-- The payload PBUF[0..n-1] in index order. -/
def Memory.bytes (m : Memory) (n : Nat) : List Byte := (List.range n).map (Memory.read m)

/-- Produce one event (R10: `emit SIG`, `emit BIT`, and the request of `await SLEEP`). -/
def State.emit (o : Output) (s : State) : State := { s with outputs := s.outputs ++ [o] }

/-- Produce several events in order (R43). -/
def State.emitAll (os : List Output) (s : State) : State := { s with outputs := s.outputs ++ os }

/-- `respond(r)` (R10): end the command with status OK and RESULT r. -/
def State.respond (r : DWord) (s : State) : State := s.emit (.response ⟨.ok, r⟩)

/-- `raise E` (R10, R79): the one way a command ends in an error. RESULT is 0 (R53), no state is written
and no event is produced; there is no handler and nothing to return from (R83). -/
def State.raise (e : Status) (s : State) : State := s.emit (.response ⟨e, 0⟩)

/-- FrameReset (R59): every frame register and PBUF, no Manchester register. -/
def State.frameReset (s : State) : State := { s with fc := Frame.empty }

/-- HardwareReset (R93): every register at its reset value; a blocked command is abandoned with no
response; events already produced stay produced. The parameters are fixed (R8). -/
def State.hardwareReset (s : State) : State :=
  { s with fc := Frame.empty, mlc := Mlc.empty, blocked := none }

/-- PREV <- b (R69). -/
def State.setPrev (b : Bool) (s : State) : State := { s with mlc := { s.mlc with prev := b } }

/-- The first SLEEP completion or RST among the inputs, and the inputs without it; commands wait at the
port meanwhile (R97). -/
def takeSignal : List Input → Option (Signal × List Input)
  | [] => none
  | .sleepDone :: is => some (.sleepDone, is)
  | .reset :: is => some (.reset, is)
  | .command c :: is => (takeSignal is).map fun x => (x.1, .command c :: x.2)

/-- Run a blocking command's event list (R69, R70, R66). Each SLEEP is requested and awaited (R10): if the
timer's completion is the next signal the command goes on at once, else the command is blocked with
the rest of its list (R32). At the end of the list it responds OK with RESULT 0. -/
def runLine : List LineOp → State → State
  | [], s => { s with blocked := none }.respond 0
  | .setPrev b :: ops, s => runLine ops (s.setPrev b)
  | .sig l :: ops, s => runLine ops (s.emit (.sig l))
  | .sleep :: ops, s =>
    match takeSignal s.inputs with
    | some (.sleepDone, rest) => runLine ops { s.emit .sleep with inputs := rest }
    | _ => { s.emit .sleep with blocked := some ops }

/-- What the block does next. -/
inductive Fetched where
  /-- No input it can take: it is idle (R92, R94), or blocked on a SLEEP that is not completed (U11). -/
  | wait
  /-- A command is accepted from the port (R97). -/
  | command (c : Command) (s : State)
  /-- The awaited SLEEP is completed (R86). -/
  | resume (ops : List LineOp) (s : State)
  /-- RST (R93). -/
  | reset (s : State)
  /-- A SLEEP completion that nothing waits for. -/
  | stray
deriving DecidableEq, Repr

/-- Take the next input. While a command is blocked only a SLEEP completion or RST is taken (R97). -/
def State.fetch (s : State) : Fetched :=
  match s.blocked with
  | some ops =>
    match takeSignal s.inputs with
    | some (.sleepDone, rest) => .resume ops { s with inputs := rest }
    | some (.reset, rest) => .reset { s with inputs := rest }
    | none => .wait
  | none =>
    match s.inputs with
    | [] => .wait
    | .command c :: rest => .command c { s with inputs := rest }
    | .reset :: rest => .reset { s with inputs := rest }
    | .sleepDone :: _ => .stray

/-- The next state of an outcome that has one. -/
def nextState? (o : Host.Outcome State Fault Refusal) : Option State :=
  match o with
  | .next s => some s
  | .fault _ => none
  | .refused _ => none

end Sys2Proof.Machine
end

