-- ==== Sys2Proof/Machine/Operands.lean ====
section
/-! DEFINITION. Operand forms: which operand values a command accepts (60_exceptions.md R78, code 3) and
the selector map of REG_READ (20_memory.md R35). -/

namespace Sys2Proof.Machine

/-- An operand word fits in 32 bits (R68): its bits 63:32 are 0. -/
def fits32 (x : DWord) : Bool := x.extractLsb' 32 32 == 0

/-- The 32-bit value of an operand word (R68): its bits 31:0. -/
def low32 (x : DWord) : Word := x.extractLsb' 0 32

/-- The PBUF index an A field names (R34); 255 is outside the space. -/
def pbufIndex? (a : Byte) : Option Nat := if a = 255 then none else some a.toNat

/-- The registers and parameters REG_READ can read (R35). -/
inductive Reg where
  | stage | pre | size | csum | bitpos | h | s | prev | lastTs | status | paramN | paramConst
deriving DecidableEq, Repr

/-- The selector map (R35); 0x0C to 0xFF are reserved. -/
def Reg.ofSelector? (a : Byte) : Option Reg :=
  match a.toNat with
  | 0x00 => some .stage
  | 0x01 => some .pre
  | 0x02 => some .size
  | 0x03 => some .csum
  | 0x04 => some .bitpos
  | 0x05 => some .h
  | 0x06 => some .s
  | 0x07 => some .prev
  | 0x08 => some .lastTs
  | 0x09 => some .status
  | 0x0A => some .paramN
  | 0x0B => some .paramConst
  | _ => none

end Sys2Proof.Machine
end

