-- ==== Sys2Proof/Machine/Flags.lean ====
section
/-! DEFINITION. Flags and result words: the STATUS view (10_state.md R31), isDone, the interval
classifier (41_manchester.md R71) with the ORD_ERR rule (R73), and MC_DECODE_EDGE's RESULT (R54). -/

namespace Sys2Proof.Machine

/-- A one-bit result, zero-extended (R54). -/
def boolResult (b : Bool) : DWord := (BitVec.ofBool b).setWidth 64

/-- STATUS (R31): `zext_64(ORD_ERR : SYNC_V : CFG_OK)`. -/
def Mlc.status (m : Mlc) : DWord :=
  (BitVec.ofBool m.ordErr ++ BitVec.ofBool m.syncV ++ BitVec.ofBool m.cfgOk).setWidth 64

/-- isDone (R60): STAGE = DONE. -/
def Frame.isDone (f : Frame) : Bool := f.stage == .done

/-- `elapsed = ts - LAST_TS` (R73), an integer that may be negative. -/
def Mlc.elapsed (m : Mlc) (ts : DWord) : Int := (ts.toNat : Int) - (m.lastTs.toNat : Int)

/-- `Mult(elapsed) = 1 + floor((elapsed - S) / H)` (R71), with floor toward minus infinity (R9). -/
def Mlc.multiplier (m : Mlc) (elapsed : Int) : Int :=
  1 + (elapsed - (m.sensitivity.toNat : Int)).fdiv (m.halfPeriod.toNat : Int)

/-- The class of an edge (R71, R73). -/
inductive EdgeClass where
  | sync
  | data
  | skip
  | desync
deriving DecidableEq, Repr

/-- CLS in MC_DECODE_EDGE's RESULT (R54). -/
def EdgeClass.code : EdgeClass → BitVec 2
  | .sync => 0
  | .data => 1
  | .skip => 2
  | .desync => 3

/-- BV (R73): whether an edge of the class carries a bit. -/
def EdgeClass.carriesBit : EdgeClass → Bool
  | .sync => true
  | .data => true
  | .skip => false
  | .desync => false

/-- The class of a multiplier (R71). -/
def EdgeClass.ofMultiplier (m : Int) : EdgeClass :=
  if m = 2 then .skip
  else if m = 1 ∨ m = 3 then .data
  else .desync

/-- The class of an edge at ts (R73): SYNC while unsynchronized, else by the multiplier. -/
def Mlc.classify (m : Mlc) (ts : DWord) : EdgeClass :=
  if m.syncV then EdgeClass.ofMultiplier (m.multiplier (m.elapsed ts)) else .sync

/-- An edge breaks the timestamp order (R30, R73): synchronized, and earlier than LAST_TS. -/
def Mlc.outOfOrder (m : Mlc) (ts : DWord) : Bool := m.syncV && decide (ts.toNat < m.lastTs.toNat)

/-- The Manchester registers after an edge (R73): a DESYNC drops the reference and LAST_TS keeps its stale
value; every other class takes the edge as the reference. ORD_ERR is only ever set (R30). -/
def Mlc.afterEdge (m : Mlc) (ts : DWord) : Mlc :=
  match m.classify ts with
  | .desync => { m with syncV := false, ordErr := m.ordErr || m.outOfOrder ts }
  | .sync | .data | .skip =>
    { m with syncV := true, lastTs := ts, ordErr := m.ordErr || m.outOfOrder ts }

/-- RESULT of MC_DECODE_EDGE (R54, R73): `zext_64(done : cls : (bit AND bv) : bv)`. -/
def edgeResult (done : Bool) (cls : EdgeClass) (bit : Bool) : DWord :=
  (BitVec.ofBool done ++ cls.code ++ BitVec.ofBool (bit && cls.carriesBit)
    ++ BitVec.ofBool cls.carriesBit).setWidth 64

end Sys2Proof.Machine
end

