-- ==== Sys2Proof/Machine/HostAccess.lean ====
section
/-! DEFINITION. The host access family (42_host_access.md): the meanings of PB_WRITE, PB_READ and
REG_READ. -/

namespace Sys2Proof.Machine

/-- RESULT of REG_READ (R35): every value zero-extended to 64 bits. -/
def Reg.value (r : Reg) (s : State) : DWord :=
  match r with
  | .stage => s.fc.stage.code.setWidth 64
  | .pre => s.fc.pre.setWidth 64
  | .size => s.fc.size.setWidth 64
  | .csum => s.fc.csum.setWidth 64
  | .bitpos => s.fc.bitpos.setWidth 64
  | .h => s.mlc.halfPeriod.setWidth 64
  | .s => s.mlc.sensitivity.setWidth 64
  | .prev => boolResult s.mlc.prev
  | .lastTs => s.mlc.lastTs
  | .status => s.mlc.status
  | .paramN => BitVec.ofNat 64 s.preamble.bytes
  | .paramConst => s.preamble.const.setWidth 64

/-- PB_WRITE idx, byte (R75): PBUF[idx] only. -/
def execPbWrite (idx byte : Byte) (s : State) : Host.Outcome State Fault Refusal :=
  match pbufIndex? idx with
  | none => .next (s.raise .badArg)
  | some i => .next ({ s with fc := { s.fc with pbuf := s.fc.pbuf.write i byte } }.respond 0)

/-- PB_READ idx (R76). -/
def execPbRead (idx : Byte) (s : State) : Host.Outcome State Fault Refusal :=
  match pbufIndex? idx with
  | none => .next (s.raise .badArg)
  | some i => .next (s.respond ((s.fc.pbuf.read i).setWidth 64))

/-- REG_READ sel (R77). -/
def execRegRead (sel : Byte) (s : State) : Host.Outcome State Fault Refusal :=
  match Reg.ofSelector? sel with
  | none => .next (s.raise .badArg)
  | some r => .next (s.respond (r.value s))

end Sys2Proof.Machine
end

