-- ==== Sys2Proof/Machine/Crc.lean ====
section
/-! DEFINITION. CRC-32 of the IEEE polynomial, bit by bit as 40_frame.md R61 writes it. The spec itself
supplies R61 from general knowledge (93_implementation_defined.md G1); the model takes R61. -/

namespace Sys2Proof.Machine

/-- One round of the inner loop (R61). -/
def crcBit (c : Word) : Word := if c.getLsbD 0 then (c >>> 1) ^^^ 0xEDB88320 else c >>> 1

/-- The inner loop run n times (R61). -/
def crcBits : Nat → Word → Word
  | 0, c => c
  | n + 1, c => crcBits n (crcBit c)

/-- One byte of the outer loop (R61): XOR the byte in, then 8 rounds. -/
def crcByte (c : Word) (d : Byte) : Word := crcBits 8 (c ^^^ d.setWidth 32)

/-- `CRC32(d[0..n-1])` (R61). -/
def crc32 (bytes : List Byte) : Word := bytes.foldl crcByte 0xFFFFFFFF ^^^ 0xFFFFFFFF

end Sys2Proof.Machine
end

