-- ==== Sys2Proof/Machine/FrameCodec.lean ====
section
/-! DEFINITION. The frame codec family (40_frame.md): ConsumeBit, the wire stream, and the meanings of
FC_CONSUME_BIT, FC_RESET, FC_IS_VALID, FC_BUILD and FC_SERIALIZE. -/

namespace Sys2Proof.Machine

/-- ConsumeBit in stage PREAMBLE (R60): the preamble detector. -/
def Frame.consumePreamble (p : Preamble) (b : Bool) (f : Frame) : Frame :=
  let pre := shiftPre p f.pre b
  if pre = p.const then { f with pre := pre, stage := .size, bitpos := 0 }
  else { f with pre := pre }

/-- ConsumeBit in stage SIZE (R60): the length register; a zero size resets the frame, any other size
allocates the payload, which clears PBUF (D24). -/
def Frame.consumeSize (b : Bool) (f : Frame) : Frame :=
  let size := shiftIn f.size b
  if f.bitpos.toNat + 1 = 8 then
    if size = 0 then Frame.empty
    else { f with size := size, pbuf := [], stage := .data, bitpos := 0 }
  else { f with size := size, bitpos := f.bitpos + 1 }

/-- ConsumeBit in stage DATA (R60): the payload accumulator, into byte floor(BITPOS / 8). -/
def Frame.consumeData (b : Bool) (f : Frame) : Frame :=
  let k := f.bitpos.toNat / 8
  let pbuf := f.pbuf.write k (shiftIn (f.pbuf.read k) b)
  if f.bitpos.toNat + 1 = 8 * f.size.toNat then
    { f with pbuf := pbuf, stage := .checksum, bitpos := 0 }
  else { f with pbuf := pbuf, bitpos := f.bitpos + 1 }

/-- ConsumeBit in stage CHECKSUM (R60): the checksum register. -/
def Frame.consumeChecksum (b : Bool) (f : Frame) : Frame :=
  let csum := shiftIn f.csum b
  if f.bitpos.toNat + 1 = 32 then { f with csum := csum, stage := .done, bitpos := 0 }
  else { f with csum := csum, bitpos := f.bitpos + 1 }

/-- `ConsumeBit(b)` (R60), the Frame after one bit; DONE ignores the bit. -/
def Frame.consumeBit (p : Preamble) (b : Bool) (f : Frame) : Frame :=
  match f.stage with
  | .preamble => f.consumePreamble p b
  | .size => f.consumeSize b
  | .data => f.consumeData b
  | .checksum => f.consumeChecksum b
  | .done => f

/-- A bit cannot be consumed: it would index PBUF at 255 or take BITPOS past 11 bits. R21 rules this out
in every state a run reaches (log entry 6). -/
def Frame.overrun (f : Frame) : Bool :=
  match f.stage with
  | .preamble => false
  | .size => decide (2047 ≤ f.bitpos.toNat)
  | .data => decide (2040 ≤ f.bitpos.toNat)
  | .checksum => decide (2047 ≤ f.bitpos.toNat)
  | .done => false

/-- The payload PBUF[0..SIZE-1] (R22). -/
def Frame.payload (f : Frame) : List Byte := f.pbuf.bytes f.size.toNat

/-- isValid (R64): the CRC of the payload as it is now against CSUM, 0 before DONE. -/
def Frame.isValid (f : Frame) : Bool := f.isDone && crc32 f.payload == f.csum

/-- The wire stream of a frame (R55): preamble constant, size, payload, checksum, each MSB first (R37), the
multi-byte fields most significant byte first (R38). -/
def Frame.wireStream (p : Preamble) (f : Frame) : List Bool :=
  bitsMSB p.const (8 * p.bytes) ++ bitsMSB f.size 8
    ++ f.payload.flatMap (fun byte => bitsMSB byte 8) ++ bitsMSB f.csum 32

/-- The event list of `EncodeBit(b)` from PREV (R69). -/
def encodeBitOps (prev b : Bool) : List LineOp :=
  (if b = prev then [.sig (!b)] else []) ++ [.setPrev b, .sleep, .sig b, .sleep]

/-- The event list of EncodeBit over a bit sequence (R66, sink 1): each bit is the next one's PREV. -/
def encodeStreamOps : Bool → List Bool → List LineOp
  | _, [] => []
  | prev, b :: bs => encodeBitOps prev b ++ encodeStreamOps b bs

/-- FC_CONSUME_BIT b (R62). -/
def execFcConsumeBit (b : Bool) (s : State) : Host.Outcome State Fault Refusal :=
  if s.fc.overrun then .fault .frameOverrun
  else
    let fc := s.fc.consumeBit s.preamble b
    .next ({ s with fc := fc }.respond (boolResult fc.isDone))

/-- FC_RESET (R63). -/
def execFcReset (s : State) : Host.Outcome State Fault Refusal :=
  .next (s.frameReset.respond 0)

/-- FC_IS_VALID (R64). -/
def execFcIsValid (s : State) : Host.Outcome State Fault Refusal :=
  .next (s.respond (boolResult s.fc.isValid))

/-- FC_BUILD len (R65): PBUF is read, not written. -/
def execFcBuild (len : Byte) (s : State) : Host.Outcome State Fault Refusal :=
  if len = 0 then .next (s.raise .badArg)
  else
    let fc := { s.fc with
      pre := s.preamble.const, size := len, csum := crc32 (s.fc.pbuf.bytes len.toNat),
      bitpos := 0, stage := .done }
    .next ({ s with fc := fc }.respond 0)

/-- FC_SERIALIZE sink (R66): the wire stream on the BIT channel, or through the encoder. -/
def execFcSerialize (sink : Sink) (s : State) : Host.Outcome State Fault Refusal :=
  if sink = .line ∧ s.mlc.cfgOk = false then .next (s.raise .notConfigured)
  else if s.fc.isDone = false then .next (s.raise .badState)
  else
    let bits := s.fc.wireStream s.preamble
    match sink with
    | .bits => .next ((s.emitAll (bits.map .bit)).respond 0)
    | .line => .next (runLine (encodeStreamOps s.mlc.prev bits) s)

end Sys2Proof.Machine
end

