-- ==== Sys2Proof/Machine/Manchester.lean ====
section
/-! DEFINITION. The Manchester family (41_manchester.md): the meanings of MC_CONFIG, MC_ENCODE_BIT and
MC_DECODE_EDGE. The encoder's event list is in FrameCodec.lean (FC_SERIALIZE uses it too), the interval
classifier in Flags.lean. -/

namespace Sys2Proof.Machine

/-- MC_CONFIG h, s (R68): construction of the Manchester state; ORD_ERR and the Frame are kept. -/
def execMcConfig (h s : DWord) (st : State) : Host.Outcome State Fault Refusal :=
  if fits32 h = false ∨ fits32 s = false then .next (st.raise .badArg)
  else if low32 h = 0 then .next (st.raise .configInvalid)
  else
    let mlc := { st.mlc with
      halfPeriod := low32 h, sensitivity := low32 s, prev := false, syncV := false, lastTs := 0,
      cfgOk := true }
    .next ({ st with mlc := mlc }.respond 0)

/-- MC_ENCODE_BIT b (R70). -/
def execMcEncodeBit (b : Bool) (s : State) : Host.Outcome State Fault Refusal :=
  if s.mlc.cfgOk = false then .next (s.raise .notConfigured)
  else .next (runLine (encodeBitOps s.mlc.prev b) s)

/-- MC_DECODE_EDGE dir, route, ts (R73): classify the edge, move the timing reference, and deliver the
edge's bit, if it carries one, to the BIT channel or to ConsumeBit. -/
def execMcDecodeEdge (dir : Direction) (route : Route) (ts : DWord) (s : State) :
    Host.Outcome State Fault Refusal :=
  if s.mlc.cfgOk = false then .next (s.raise .notConfigured)
  else if s.mlc.syncV = true ∧ s.mlc.halfPeriod = 0 then .fault .zeroHalfPeriod
  else
    let cls := s.mlc.classify ts
    let s' := { s with mlc := s.mlc.afterEdge ts }
    if cls.carriesBit then
      match route with
      | .channel => .next ((s'.emit (.bit dir.bit)).respond (edgeResult s.fc.isDone cls dir.bit))
      | .frame =>
        if s.fc.overrun then .fault .frameOverrun
        else
          let fc := s.fc.consumeBit s.preamble dir.bit
          .next ({ s' with fc := fc }.respond (edgeResult fc.isDone cls dir.bit))
    else .next (s'.respond (edgeResult s.fc.isDone cls dir.bit))

end Sys2Proof.Machine
end

