-- ==== Sys2Proof/Machine/Dispatch.lean ====
section
/-! DEFINITION. One arm per command: the meaning each constructor of Instr has. The state given to exec is
the state in which the block has accepted the command from its port. -/

namespace Sys2Proof.Machine

def exec (i : Instr) (s : State) : Host.Outcome State Fault Refusal :=
  match i with
  | .fcConsumeBit b => Sys2Proof.Machine.execFcConsumeBit b s
  | .fcReset => Sys2Proof.Machine.execFcReset s
  | .fcIsValid => Sys2Proof.Machine.execFcIsValid s
  | .fcBuild len => Sys2Proof.Machine.execFcBuild len s
  | .fcSerialize sink => Sys2Proof.Machine.execFcSerialize sink s
  | .mcConfig h se => Sys2Proof.Machine.execMcConfig h se s
  | .mcEncodeBit b => Sys2Proof.Machine.execMcEncodeBit b s
  | .mcDecodeEdge dir route ts => Sys2Proof.Machine.execMcDecodeEdge dir route ts s
  | .pbWrite idx byte => Sys2Proof.Machine.execPbWrite idx byte s
  | .pbRead idx => Sys2Proof.Machine.execPbRead idx s
  | .regRead sel => Sys2Proof.Machine.execRegRead sel s

end Sys2Proof.Machine
end

