-- ==== Sys2Proof/Machine/Step.lean ====
section
/-! DEFINITION. One step: take the next input (Ops.lean) and do what it asks. -/

namespace Sys2Proof.Machine

/-- The status a decoding error is answered with (R50). -/
def rejectStatus : DecodeError → Status
  | .illegalOpcode => .illegalOpcode
  | .reservedField => .reservedField

/-- Perform one accepted command (R12): decode, then its meaning; a rejected word is answered with its
error (R50, R79). -/
def runCommand (c : Command) (s : State) : Host.Outcome State Fault Refusal :=
  match decode c with
  | .error e => .next (s.raise (rejectStatus e))
  | .ok i => exec i s

/-- One step of the block. -/
def step (s : State) : Host.Outcome State Fault Refusal :=
  match s.fetch with
  | .wait => .next s
  | .command c s' => runCommand c s'
  | .resume ops s' => .next (runLine ops s')
  | .reset s' => .next s'.hardwareReset
  | .stray => .fault .unrequestedSleepDone

/-- s with a table word as the command the block accepts next: the word's command at the front of the
inputs, and no command blocked (log entry 7). -/
def State.withFetchWord (s : State) (nbits w : Nat) : State :=
  { s with inputs := .command (commandOfBits nbits w) :: s.inputs, blocked := none }

end Sys2Proof.Machine
end

