-- ==== Sys2Proof/Machine/Assembler.lean ====
section
/-! DEFINITION. The assembler of 30_encoding.md R57 and the pseudo-instructions of R58. A line is a list of
characters; an assembled line is a list of commands, so a blank or comment line is the empty list. -/

namespace Sys2Proof.Machine

/-- A line of source: a command, or a pseudo-instruction (R58). -/
inductive AsmLine where
  | instr (i : Instr)
  | consume8 (v : Byte)
  | consume32 (v : Word)
  | consumeN (v : Word)
  | load (idx : Byte) (bytes : List Byte)
  | encode8 (v : Byte)
  | configDefault (h : DWord)
deriving DecidableEq, Repr

/-- The expansion of a line (R58). `consumeN` takes the preamble's width from the parameters. -/
def AsmLine.expand (p : Preamble) : AsmLine → List Instr
  | .instr i => [i]
  | .consume8 v => (bitsMSB v 8).map .fcConsumeBit
  | .consume32 v => (bitsMSB v 32).map .fcConsumeBit
  | .consumeN v => (bitsMSB v (8 * p.bytes)).map .fcConsumeBit
  | .load idx bytes => bytes.mapIdx fun k byte => .pbWrite (BitVec.ofNat 8 (idx.toNat + k)) byte
  | .encode8 v => (bitsMSB v 8).map .mcEncodeBit
  | .configDefault h => [.mcConfig h (BitVec.ofNat 64 (3 * h.toNat / 5))]

/-- The line without its comment: `;` starts one (R57). A `;` between double quotes is text. -/
def asmStripComment : Bool → List Char → List Char
  | _, [] => []
  | quoted, c :: cs =>
    if c = ';' ∧ quoted = false then []
    else c :: asmStripComment (if c = '"' then !quoted else quoted) cs

/-- White space of a source line. -/
def asmIsSpace (c : Char) : Bool := c == ' ' || c == '\t'

/-- A text without the white space around it. -/
def asmTrim (cs : List Char) : List Char :=
  (((cs.dropWhile asmIsSpace).reverse).dropWhile asmIsSpace).reverse

/-- The operands of a line, separated by commas outside double quotes; `acc` is the operand read so far,
last character first. -/
def asmSplit : Bool → List Char → List Char → List (List Char)
  | _, acc, [] => [asmTrim acc.reverse]
  | quoted, acc, c :: cs =>
    if c = ',' ∧ quoted = false then asmTrim acc.reverse :: asmSplit quoted [] cs
    else asmSplit (if c = '"' then !quoted else quoted) (c :: acc) cs

/-- The value of a hexadecimal digit. -/
def asmHexDigit? (c : Char) : Option Nat :=
  if '0' ≤ c ∧ c ≤ '9' then some (c.toNat - '0'.toNat)
  else if 'a' ≤ c ∧ c ≤ 'f' then some (c.toNat - 'a'.toNat + 10)
  else if 'A' ≤ c ∧ c ≤ 'F' then some (c.toNat - 'A'.toNat + 10)
  else none

/-- The digits of a number in a base, after the value read so far. -/
def asmDigits? (base : Nat) : Nat → List Char → Option Nat
  | v, [] => some v
  | v, c :: cs =>
    match asmHexDigit? c with
    | some d => if d < base then asmDigits? base (base * v + d) cs else none
    | none => none

/-- A decimal or 0x hexadecimal number (R57). -/
def asmNumber? : List Char → Option Nat
  | [] => none
  | '0' :: 'x' :: c :: cs => asmDigits? 16 0 (c :: cs)
  | c :: cs => asmDigits? 10 0 (c :: cs)

/-- A number that fits in w bits. -/
def asmField? (w : Nat) (cs : List Char) : Option (BitVec w) :=
  match asmNumber? cs with
  | some v => if v < 2 ^ w then some (BitVec.ofNat w v) else none
  | none => none

/-- A bit operand: 0 or 1. -/
def asmBit? (cs : List Char) : Option Bool := (asmField? 1 cs).map fun v => v == 1

/-- A direction operand (R57). -/
def asmDirection? (cs : List Char) : Option Direction :=
  if cs = ['u', 'p'] then some .up
  else if cs = ['d', 'o', 'w', 'n'] then some .down
  else none

/-- A sink operand (R57). -/
def asmSink? (cs : List Char) : Option Sink :=
  if cs = ['b', 'i', 't', 's'] then some .bits
  else if cs = ['l', 'i', 'n', 'e'] then some .line
  else none

/-- The names of the selectors (R35), in selector order. -/
def asmSelectors : List (List Char) :=
  ["STAGE".toList, "PRE".toList, "SIZE".toList, "CSUM".toList, "BITPOS".toList, "H".toList, "S".toList,
   "PREV".toList, "LAST_TS".toList, "STATUS".toList, "PARAM_N".toList, "PARAM_CONST".toList]

/-- A selector operand: a number or a name of R35 (R57). -/
def asmSelector? (cs : List Char) : Option Byte :=
  match asmSelectors.findIdx? (fun n => n == cs) with
  | some k => some (BitVec.ofNat 8 k)
  | none => asmField? 8 cs

/-- The bytes of an ASCII text up to its closing double quote, which must end the operand. -/
def asmText? : List Char → Option (List Byte)
  | [] => none
  | ['"'] => some []
  | c :: cs =>
    if c = '"' ∨ 128 ≤ c.toNat then none
    else (asmText? cs).map (BitVec.ofNat 8 c.toNat :: ·)

/-- The byte list of `pb.load`: one quoted text, or numbers (R58). An index with no byte list (`pb.load 3`) is
no line of the language: DESIGN CHOICE, since R58's syntax has a list and says nothing of a line without one
(log entry 9). -/
def asmBytes? : List (List Char) → Option (List Byte)
  | [] => none
  | ['"' :: cs] => asmText? cs
  | args => args.mapM (asmField? 8)

/-- `pb.load` with the indices it writes inside the 8-bit A field. -/
def asmLoad? (idx : Byte) (bytes : List Byte) : Option AsmLine :=
  if idx.toNat + bytes.length ≤ 256 then some (.load idx bytes) else none

/-- A line's mnemonic and operands as a term (R57, R58). -/
def asmParse? (m : List Char) (args : List (List Char)) : Option AsmLine :=
  if m = "fc.reset".toList then (match args with | [[]] => some (.instr .fcReset) | _ => none)
  else if m = "fc.isvalid".toList then (match args with | [[]] => some (.instr .fcIsValid) | _ => none)
  else if m = "fc.consume".toList then
    (match args with | [x] => (asmBit? x).map fun b => .instr (.fcConsumeBit b) | _ => none)
  else if m = "fc.build".toList then
    (match args with | [x] => (asmField? 8 x).map fun v => .instr (.fcBuild v) | _ => none)
  else if m = "fc.serialize".toList then
    (match args with | [x] => (asmSink? x).map fun k => .instr (.fcSerialize k) | _ => none)
  else if m = "mc.config".toList then
    (match args with
      | [x, y] => (asmField? 64 x).bind fun h => (asmField? 64 y).map fun s => .instr (.mcConfig h s)
      | _ => none)
  else if m = "mc.encode".toList then
    (match args with | [x] => (asmBit? x).map fun b => .instr (.mcEncodeBit b) | _ => none)
  else if m = "mc.decode".toList then
    (match args with
      | [x, y] =>
        (asmDirection? x).bind fun d => (asmField? 64 y).map fun t => .instr (.mcDecodeEdge d .channel t)
      | [x, y, ['f', 'c']] =>
        (asmDirection? x).bind fun d => (asmField? 64 y).map fun t => .instr (.mcDecodeEdge d .frame t)
      | _ => none)
  else if m = "pb.write".toList then
    (match args with
      | [x, y] => (asmField? 8 x).bind fun i => (asmField? 8 y).map fun v => .instr (.pbWrite i v)
      | _ => none)
  else if m = "pb.read".toList then
    (match args with | [x] => (asmField? 8 x).map fun i => .instr (.pbRead i) | _ => none)
  else if m = "reg.read".toList then
    (match args with | [x] => (asmSelector? x).map fun r => .instr (.regRead r) | _ => none)
  else if m = "fc.consume8".toList then
    (match args with | [x] => (asmField? 8 x).map fun v => .consume8 v | _ => none)
  else if m = "fc.consume32".toList then
    (match args with | [x] => (asmField? 32 x).map fun v => .consume32 v | _ => none)
  else if m = "fc.consumeN".toList then
    (match args with | [x] => (asmField? 32 x).map fun v => .consumeN v | _ => none)
  else if m = "pb.load".toList then
    (match args with
      | x :: rest => (asmField? 8 x).bind fun i => (asmBytes? rest).bind fun bs => asmLoad? i bs
      | _ => none)
  else if m = "mc.encode8".toList then
    (match args with | [x] => (asmField? 8 x).map fun v => .encode8 v | _ => none)
  else if m = "mc.config_default".toList then
    (match args with | [x] => (asmField? 64 x).map fun h => .configDefault h | _ => none)
  else none

/-- The commands of one source line (R57); none where the line is not of the assembler's syntax. -/
def assembleLine (p : Preamble) (line : List Char) : Option (List Command) :=
  let text := asmTrim (asmStripComment false line)
  match text with
  | [] => some []
  | _ =>
    let m := text.takeWhile (fun c => !asmIsSpace c)
    let rest := text.dropWhile (fun c => !asmIsSpace c)
    (asmParse? m (asmSplit false [] rest)).map fun l => (l.expand p).map encode

/-- The commands of a source text, one line after the other (R57). -/
def assemble (p : Preamble) (lines : List (List Char)) : Option (List Command) :=
  (lines.mapM (assembleLine p)).map List.flatten

end Sys2Proof.Machine
end

