-- ==== Sys2Proof/Machine/Environment.lean ====
section
/-! DEFINITION. The agents outside the block (00_scope.md R13), as far as their contracts give them
(60_exceptions.md R86 to R89, 70_reset_and_hazards.md R105, R106): plain functions over what the block
produces and takes. `step` uses none of them. -/

namespace Sys2Proof.Machine

/-- The half-period timer has completed the next n requests (R86): the first n signals among the inputs
are SLEEP completions; the inputs without them. -/
def Env.completions : Nat → List Input → Option (List Input)
  | 0, is => some is
  | n + 1, is =>
    match takeSignal is with
    | some (.sleepDone, rest) => Env.completions n rest
    | _ => none

/-- The time of each output (R105, R106): a SLEEP lasts exactly h, everything else takes no time. A SLEEP is
stamped with the time it is requested. -/
def Env.timeline (h : Nat) : Nat → List Output → List (Nat × Output)
  | _, [] => []
  | t, .sleep :: os => (t, .sleep) :: Env.timeline h (t + h) os
  | t, .sig l :: os => (t, .sig l) :: Env.timeline h t os
  | t, .bit b :: os => (t, .bit b) :: Env.timeline h t os
  | t, .response r :: os => (t, .response r) :: Env.timeline h t os

/-- The time at which the outputs are over (R105): one half-period per SLEEP. -/
def Env.endTime (h : Nat) : Nat → List Output → Nat
  | t, [] => t
  | t, .sleep :: os => Env.endTime h (t + h) os
  | t, .sig _ :: os => Env.endTime h t os
  | t, .bit _ :: os => Env.endTime h t os
  | t, .response _ :: os => Env.endTime h t os

/-- The line driver (R87): each SIG drives the line; an edge exists only where the level changes. The level
before the first SIG is an argument (U12). -/
def Env.lineEdges : Bool → List (Nat × Output) → List (Direction × Nat)
  | _, [] => []
  | level, (t, .sig l) :: os =>
    if l = level then Env.lineEdges level os
    else (Direction.ofBit l, t) :: Env.lineEdges l os
  | level, (_, .sleep) :: os => Env.lineEdges level os
  | level, (_, .bit _) :: os => Env.lineEdges level os
  | level, (_, .response _) :: os => Env.lineEdges level os

/-- The bit sink (R88): the bits of the BIT channel in emission order. -/
def Env.bitSink : List Output → List Bool
  | [] => []
  | .bit b :: os => b :: Env.bitSink os
  | .sig _ :: os => Env.bitSink os
  | .sleep :: os => Env.bitSink os
  | .response _ :: os => Env.bitSink os

/-- The 64-bit timestamp the edge source issues for a time (R52, D11). DESIGN CHOICE, unsafe (log entry 16): D11
gives no wrap handling, so R89 leaves open what the source issues at a time of 2^64 or more; here it is the time
modulo 2^64. -/
def Env.timestamp (time : Nat) : DWord := BitVec.ofNat 64 time

/-- The edge source (R89): one MC_DECODE_EDGE per edge, with the edge's direction and timestamp. -/
def Env.edgeInstrs (route : Route) (edges : List (Direction × Nat)) : List Instr :=
  edges.map fun e => .mcDecodeEdge e.1 route (Env.timestamp e.2)

/-- The edge source's duty (R89, R99): the timestamps it issues do not decrease, so a list whose timestamps wrap
below an earlier one breaks it (D11). -/
abbrev Env.EdgesInOrder (edges : List (Direction × Nat)) : Prop :=
  edges.Pairwise fun x y => (Env.timestamp x.2).toNat ≤ (Env.timestamp y.2).toNat

/-- The host issues commands one after the other and waits for each response (R43, R97); none if one of them
stops or does not respond. -/
def Env.issue : List Instr → State → Option State
  | [], s => some s
  | i :: is, s =>
    match exec i s with
    | .next s' => if s'.blocked = none then Env.issue is s' else none
    | .fault _ => none
    | .refused _ => none

/-- One step of instance k among several (R90): a system of instances is their product, interleaved in any
order; none if there is no instance k or it stops. -/
def Env.stepInstance (k : Nat) (system : List State) : Option (List State) :=
  match system[k]? with
  | some s => (nextState? (step s)).map fun t => system.set k t
  | none => none

/-- The host's send sequence (R96): a clean buffer, the payload bytes, FC_BUILD, FC_SERIALIZE. DESIGN CHOICE, unsafe
(log entry 17): R96 gives no sequence for a payload of more than 255 bytes; here its indices and length are taken
modulo 256. -/
def Env.sendSequence (payload : List Byte) (sink : Sink) : List Instr :=
  .fcReset :: payload.mapIdx (fun k byte => .pbWrite (BitVec.ofNat 8 k) byte)
    ++ [.fcBuild (BitVec.ofNat 8 payload.length), .fcSerialize sink]

/-- The host's receive sequence over a list of edges, then validity and read-out of n bytes (R96); an n above 255 as
in `Env.sendSequence` (log entry 17). -/
def Env.receiveSequence (edges : List (Direction × Nat)) (n : Nat) : List Instr :=
  Env.edgeInstrs .frame edges ++ [.fcIsValid]
    ++ (List.range n).map (fun k => .pbRead (BitVec.ofNat 8 k)) ++ [.fcReset]

end Sys2Proof.Machine
end

