-- ==== Sys2Proof/WellFormed.lean ====
section
/-! DEFINITION. Which commands have legal operand values. A command is ill-formed exactly when its
operand values alone make the block answer an error (60_exceptions.md R78, codes 3 and 6). Every
operand's width is already in its type, so the encoding admits ill-formed commands too, and exec
gives each of them its error response. -/

namespace Sys2Proof

/-- The error that a command's operand values alone raise (R78), the lower code first (R80). -/
def Instr.operandError : Instr → Option Status
  | .mcConfig h s =>
    if 2 ^ 32 ≤ h.toNat ∨ 2 ^ 32 ≤ s.toNat then some .badArg
    else if h = 0 then some .configInvalid
    else none
  | .fcBuild len => if len = 0 then some .badArg else none
  | .pbWrite idx _ => if idx = 255 then some .badArg else none
  | .pbRead idx => if idx = 255 then some .badArg else none
  | .regRead sel => if 12 ≤ sel.toNat then some .badArg else none
  | .fcConsumeBit _ => none
  | .fcReset => none
  | .fcIsValid => none
  | .fcSerialize _ => none
  | .mcEncodeBit _ => none
  | .mcDecodeEdge _ _ _ => none

/-- A command whose operand values the rules accept. -/
abbrev Instr.WellFormed (i : Instr) : Prop := i.operandError = none

end Sys2Proof
end

