-- ==== Sys2Proof/Safety.lean ====
section
/-! DEFINITION. What the claims take as a sound state and an orderly run: the invariants the spec derives
for a Frame and a Manchester state (10_state.md R18, R21, R23, R24), the premise ORD_ERR = 0 (U4), and
which errors apply to a command (60_exceptions.md R78). -/

namespace Sys2Proof.Machine

/-- The frame invariants of R23, with the ranges of BITPOS (R21) and PRE (R18) and the form of PBUF. -/
structure Frame.Inv (p : Preamble) (f : Frame) : Prop where
  /-- PBUF is in its one canonical form, indices 0..254. -/
  pbuf : f.pbuf.wf
  /-- PRE is 8·N bits wide (R18). -/
  preWidth : f.pre.toNat < 2 ^ (8 * p.bytes)
  /-- R23 item 1. -/
  inPreamble : f.stage = .preamble → f.size = 0 ∧ f.csum = 0 ∧ f.bitpos = 0
  /-- R23 item 2. -/
  pastPreamble : f.stage ≠ .preamble → f.pre = p.const
  /-- R23 item 3. -/
  sized : f.stage = .data ∨ f.stage = .checksum ∨ f.stage = .done → 1 ≤ f.size.toNat
  /-- R23 item 4. -/
  inSize : f.stage = .size → f.bitpos.toNat < 8
  /-- R23 item 4. -/
  inData : f.stage = .data → f.bitpos.toNat < 8 * f.size.toNat
  /-- R23 item 4. -/
  inChecksum : f.stage = .checksum → f.bitpos.toNat < 32
  /-- BITPOS stays 0 in DONE (R21). -/
  inDone : f.stage = .done → f.bitpos = 0

/-- The Manchester invariants: H ≠ 0 while CFG_OK = 1 (R24); a reference, and a broken timestamp order, exist
only in a configured codec (R29, R73). -/
structure Mlc.Inv (m : Mlc) : Prop where
  configured : m.cfgOk = true → m.halfPeriod ≠ 0
  synchronized : m.syncV = true → m.cfgOk = true
  disordered : m.ordErr = true → m.cfgOk = true

/-- The invariant of the machine: both codecs', and that only a configured encoder blocks (R29, R32). -/
structure State.Inv (s : State) : Prop where
  fc : s.fc.Inv s.preamble
  mlc : s.mlc.Inv
  blocked : s.blocked ≠ none → s.mlc.cfgOk = true

/-- The edge source has kept its duty so far (R89, U4): a claim about a real line takes this as a premise. -/
abbrev State.Orderly (s : State) : Prop := s.mlc.ordErr = false

/-- The timer keeps its contract at this state (R86): no SLEEP completion arrives with no request out. -/
abbrev State.TimerKept (s : State) : Prop := s.fetch ≠ .stray

/-- The opcode table of R50 as the spec prints it: OPC and mask. -/
def maskTable : List (Byte × Word) :=
  [(0x01, 0xFFFFFFFF), (0x11, 0xFFFFFFFF), (0x12, 0xFFFFFFFF),
   (0x02, 0xFEFFFFFF), (0x10, 0xFEFFFFFF),
   (0x03, 0xFCFFFFFF),
   (0x14, 0xFDFFFFFF),
   (0x13, 0xFFFF00FF), (0x21, 0xFFFF00FF), (0x30, 0xFFFF00FF),
   (0x20, 0xFF0000FF)]

/-- An error cause of R78 is present in a command c given to the block in state s. `ok` is no cause. -/
def ErrorApplies (c : Command) (s : State) : Status → Prop
  | .ok => False
  | .illegalOpcode => ∀ row ∈ maskTable, row.1 ≠ c.opc
  | .reservedField => ∃ row ∈ maskTable, row.1 = c.opc ∧ c.cmd &&& row.2 ≠ c.opc.setWidth 32
  | .badArg =>
    (c.opc = 0x01 ∧ (2 ^ 32 ≤ c.opa.toNat ∨ 2 ^ 32 ≤ c.opb.toNat)) ∨ (c.opc = 0x13 ∧ c.a = 0)
      ∨ (c.opc = 0x20 ∧ c.a = 255) ∨ (c.opc = 0x21 ∧ c.a = 255) ∨ (c.opc = 0x30 ∧ 0x0C ≤ c.a.toNat)
  | .notConfigured =>
    (c.opc = 0x02 ∨ c.opc = 0x03 ∨ (c.opc = 0x14 ∧ c.r = true)) ∧ s.mlc.cfgOk = false
  | .badState => c.opc = 0x14 ∧ s.fc.stage ≠ .done
  | .configInvalid => c.opc = 0x01 ∧ c.opa.toNat % 2 ^ 32 = 0

/-- A w-bit field on the wire (R37): its first bit is bit w-1 of its value. -/
def msbFirst {n : Nat} (v : BitVec n) (w : Nat) : List Bool :=
  (List.range w).map fun j => v.getLsbD (w - 1 - j)

/-- What the encoder puts on its channels for a bit sequence sent from PREV (R69): for each bit its boundary
SIG if the bit equals the bit before it, then SLEEP, the data SIG, SLEEP. -/
def lineOutputs : Bool → List Bool → List Output
  | _, [] => []
  | prev, b :: bs =>
    (if b = prev then [.sig (!b)] else []) ++ [.sleep, .sig b, .sleep] ++ lineOutputs b bs

/-- An output that is a response. -/
def Output.isResponse : Output → Bool
  | .response _ => true
  | .sig _ => false
  | .bit _ => false
  | .sleep => false

/-- An output that is a SIG event. -/
def Output.isSig : Output → Bool
  | .sig _ => true
  | .sleep => false
  | .bit _ => false
  | .response _ => false

/-- An output that is a SLEEP request. -/
def Output.isSleep : Output → Bool
  | .sleep => true
  | .sig _ => false
  | .bit _ => false
  | .response _ => false

/-- An input that is a command. -/
def Input.isCommand : Input → Bool
  | .command _ => true
  | .sleepDone => false
  | .reset => false

/-- No SLEEP completion is the next signal: no signal is there, or RST comes first (R86, R93). -/
abbrev NoCompletion (is : List Input) : Prop := ∀ rest, takeSignal is ≠ some (.sleepDone, rest)

/-- t is s after an encoder command over `bits` that waits at its SLEEP request number k, counted from 0, with
the inputs `is` left (R32, R69): what it has produced is the beginning of its event list up to that SLEEP, PREV
is the bit whose period that SLEEP is in, and all else is as in s. -/
def State.EncodingAt (s : State) (bits : List Bool) (k : Nat) (is : List Input) (t : State) : Prop :=
  ∃ (ops : List LineOp) (produced : List Output) (b : Bool),
    bits[k / 2]? = some b ∧
    t = { s with
      mlc := { s.mlc with prev := b }, blocked := some ops, inputs := is
      outputs := s.outputs ++ produced } ∧
    produced <+: lineOutputs s.mlc.prev bits ∧ produced.getLast? = some .sleep ∧
    produced.countP Output.isSleep = k + 1

/-- Feed a bit sequence to a Frame (R60). -/
def Frame.consumeBits (p : Preamble) (f : Frame) (bits : List Bool) : Frame :=
  bits.foldl (fun g b => g.consumeBit p b) f

end Sys2Proof.Machine
end

