-- ==== Sys2Proof/Certificates/Slice0/Obligations.lean ====
section
/-! DEFINITION. The statements about the model, each from rules of spec/ named in its docstring. -/

open Sys2Proof Sys2Proof.Machine

/-! ### Encoding -/

/-- R50: the checks in order, over the mask table of R50; an accepted word is its opcode's operation, with
every CMD bit accounted for. -/
def Obligations.DecoderTakesItsChecksInOrder : Prop :=
  ∀ c : Command,
    ((∀ row ∈ maskTable, row.1 ≠ c.opc) → decode c = .error .illegalOpcode) ∧
    ∀ row ∈ maskTable, row.1 = c.opc →
      (c.cmd &&& row.2 ≠ c.opc.setWidth 32 → decode c = .error .reservedField) ∧
      (c.cmd &&& row.2 = c.opc.setWidth 32 →
        ∃ i, decode c = .ok i ∧ i.opcode.code = c.opc ∧ (encode i).cmd = c.cmd)

/-- R47 to R49, R57: every command, at every operand value, is read back from its words. -/
def Obligations.DecodeOfEncodeIsTheCommand : Prop :=
  ∀ i : Instr, decode (encode i) = .ok i

/-- R49, R52: an accepted command word and the operand words its opcode uses are read without loss. -/
def Obligations.AcceptedWordsEncodeBack : Prop :=
  ∀ (c : Command) (i : Instr), decode c = .ok i →
    (encode i).cmd = c.cmd ∧
    (c.opc = 0x01 ∨ c.opc = 0x03 → (encode i).opa = c.opa) ∧
    (c.opc = 0x01 → (encode i).opb = c.opb)

/-- R47: a command that uses neither long operand ignores OPA and OPB; MC_DECODE_EDGE ignores OPB. -/
def Obligations.UnusedOperandWordsAreIgnored : Prop :=
  ∀ (c : Command) (a b : DWord),
    (c.opc ≠ 0x01 → c.opc ≠ 0x03 → decode { c with opa := a, opb := b } = decode c) ∧
    (c.opc = 0x03 → decode { c with opb := b } = decode c)

/-- R57: the assembler's table of words, as numbers: 0 in every CMD bit no operand sets, and in OPA and OPB
when the command uses neither. -/
def Obligations.EncodedWordsFollowTheAssemblersTable : Prop :=
  (∀ b, (encode (.fcConsumeBit b)).cmd.toNat = 0x10 + b.toNat * 2 ^ 24) ∧
  (encode .fcReset).cmd.toNat = 0x11 ∧ (encode .fcIsValid).cmd.toNat = 0x12 ∧
  (∀ len, (encode (.fcBuild len)).cmd.toNat = 0x13 + len.toNat * 2 ^ 8) ∧
  (encode (.fcSerialize .bits)).cmd.toNat = 0x14 ∧
  (encode (.fcSerialize .line)).cmd.toNat = 0x02000014 ∧
  (∀ h s, (encode (.mcConfig h s)).cmd.toNat = 0x01 ∧ (encode (.mcConfig h s)).opa = h ∧
    (encode (.mcConfig h s)).opb = s) ∧
  (∀ b, (encode (.mcEncodeBit b)).cmd.toNat = 0x02 + b.toNat * 2 ^ 24) ∧
  (∀ dir ts, (encode (.mcDecodeEdge dir .channel ts)).cmd.toNat = 0x03 + dir.bit.toNat * 2 ^ 24 ∧
    (encode (.mcDecodeEdge dir .frame ts)).cmd.toNat = 0x02000003 + dir.bit.toNat * 2 ^ 24 ∧
    ∀ route, (encode (.mcDecodeEdge dir route ts)).opa = ts) ∧
  (∀ idx byte, (encode (.pbWrite idx byte)).cmd.toNat =
    0x20 + idx.toNat * 2 ^ 8 + byte.toNat * 2 ^ 16) ∧
  (∀ idx, (encode (.pbRead idx)).cmd.toNat = 0x21 + idx.toNat * 2 ^ 8) ∧
  (∀ sel, (encode (.regRead sel)).cmd.toNat = 0x30 + sel.toNat * 2 ^ 8) ∧
  (∀ i, (∀ h s, i ≠ .mcConfig h s) → (encode i).opb = 0 ∧
    ((∀ dir route ts, i ≠ .mcDecodeEdge dir route ts) → (encode i).opa = 0))

/-- R58: the pseudo-instructions' expansions: each bit of the value, most significant first; one PB_WRITE per
byte of a list that stays inside the A field; the default sensitivity floor(3·h/5). -/
def Obligations.PseudoInstructionsExpand : Prop :=
  ∀ p : Preamble,
    (∀ v, AsmLine.expand p (.consume8 v) =
      (List.range 8).map fun j => .fcConsumeBit (v.getLsbD (7 - j))) ∧
    (∀ v, AsmLine.expand p (.consume32 v) =
      (List.range 32).map fun j => .fcConsumeBit (v.getLsbD (31 - j))) ∧
    (∀ v, AsmLine.expand p (.consumeN v) =
      (List.range (8 * p.bytes)).map fun j => .fcConsumeBit (v.getLsbD (8 * p.bytes - 1 - j))) ∧
    (∀ (idx : Byte) (bytes : List Byte), idx.toNat + bytes.length ≤ 256 →
      (AsmLine.expand p (.load idx bytes)).length = bytes.length ∧
      ∀ k (hk : k < bytes.length), ∃ a : Byte, a.toNat = idx.toNat + k ∧
        (AsmLine.expand p (.load idx bytes))[k]? = some (.pbWrite a bytes[k])) ∧
    (∀ v, AsmLine.expand p (.encode8 v) =
      (List.range 8).map fun j => .mcEncodeBit (v.getLsbD (7 - j))) ∧
    (∀ h : DWord, ∃ se : DWord, AsmLine.expand p (.configDefault h) = [.mcConfig h se] ∧
      5 * se.toNat ≤ 3 * h.toNat ∧ 3 * h.toNat < 5 * (se.toNat + 1))

/-- R48, R49: words of 95_test_vectors.md and what they are. -/
def Obligations.DecodesTheSpecsWords : Prop :=
  decode ⟨0x01000010, 0, 0⟩ = .ok (.fcConsumeBit true) ∧
  decode ⟨0x00000011, 0, 0⟩ = .ok .fcReset ∧
  decode ⟨0x00000012, 0, 0⟩ = .ok .fcIsValid ∧
  decode ⟨0x00000413, 0, 0⟩ = .ok (.fcBuild 4) ∧
  decode ⟨0x02000014, 0, 0⟩ = .ok (.fcSerialize .line) ∧
  decode ⟨0x00000001, 1000, 600⟩ = .ok (.mcConfig 1000 600) ∧
  decode ⟨0x01000002, 0, 0⟩ = .ok (.mcEncodeBit true) ∧
  decode ⟨0x02000003, 1000, 0⟩ = .ok (.mcDecodeEdge .down .frame 1000) ∧
  decode ⟨0x00540020, 0, 0⟩ = .ok (.pbWrite 0 0x54) ∧
  decode ⟨0x0000FE21, 0, 0⟩ = .ok (.pbRead 254) ∧
  decode ⟨0x00000930, 0, 0⟩ = .ok (.regRead 9) ∧
  decode ⟨0x00000015, 0, 0⟩ = .error .illegalOpcode ∧
  decode ⟨0x04000010, 0, 0⟩ = .error .reservedField

/-! ### The step, reset, and the errors -/

/-- R12, R97: with no command blocked, the block accepts the command at its port and performs it. -/
def Obligations.StepRunsTheDecodedCommand : Prop :=
  ∀ (s : State) (c : Command) (rest : List Input) (i : Instr),
    s.blocked = none → s.inputs = .command c :: rest → decode c = .ok i →
    step s = exec i { s with inputs := rest }

/-- R50, R51, R79: a rejected word is answered with its error; no state is written, no event produced. -/
def Obligations.RejectedWordsAreAnswered : Prop :=
  ∀ (s : State) (c : Command) (rest : List Input) (e : DecodeError),
    s.blocked = none → s.inputs = .command c :: rest → decode c = .error e →
    step s = .next { s with
      inputs := rest
      outputs := s.outputs ++ [.response
        ⟨match e with | .illegalOpcode => .illegalOpcode | .reservedField => .reservedField, 0⟩] }

/-- R93: RST, between commands or while one is blocked, puts every register at its reset value and PBUF at 0,
abandons the blocked command with no response, and leaves what was already produced. (That the commands waiting
at the port are still there after it, the clause t.inputs = rest, is the model's choice, log entry 1.) -/
def Obligations.HardwareResetPutsEveryRegisterAtItsResetValue : Prop :=
  ∀ (s : State) (rest : List Input),
    (s.blocked = none ∧ s.inputs = .reset :: rest) ∨
      (s.blocked ≠ none ∧ takeSignal s.inputs = some (.reset, rest)) →
    ∃ t, step s = .next t ∧
      t.fc.stage = .preamble ∧ t.fc.pre = 0 ∧ t.fc.size = 0 ∧ t.fc.csum = 0 ∧ t.fc.bitpos = 0 ∧
      (∀ i, t.fc.pbuf.read i = 0) ∧
      t.mlc.halfPeriod = 0 ∧ t.mlc.sensitivity = 0 ∧ t.mlc.prev = false ∧ t.mlc.syncV = false ∧
      t.mlc.lastTs = 0 ∧ t.mlc.cfgOk = false ∧ t.mlc.ordErr = false ∧
      t.blocked = none ∧ t.preamble = s.preamble ∧ t.inputs = rest ∧ t.outputs = s.outputs

/-- R92 to R94: the reset state holds the spec's reset values and waits for its first command; and every state
with no command blocked and nothing sent to it is idle and keeps all state. (That nothing has been sent to the
reset state is the model's choice, log entry 1.) -/
def Obligations.ResetStateWaitsForItsFirstCommand : Prop :=
  State.reset.fc = ⟨.preamble, 0, 0, 0, 0, []⟩ ∧
  State.reset.mlc = ⟨0, 0, false, false, 0, false, false⟩ ∧
  State.reset.blocked = none ∧
  step State.reset = .next State.reset ∧
  ∀ s : State, s.blocked = none → s.inputs = [] → step s = .next s

/-- R23, R24: the invariant holds at reset. -/
def Obligations.ResetMeetsTheInvariant : Prop := State.reset.Inv

/-- R18, R21, R23, R24, R34: every step keeps the frame's, the Manchester codec's and the buffer's invariants. -/
def Obligations.EveryStepKeepsTheInvariant : Prop :=
  ∀ s t : State, s.Inv → step s = .next t → t.Inv

/-- R53, R78: under the invariant nothing stops the block: it faults exactly when a SLEEP completion arrives
that nothing requested (the model's choice, log entry 5). -/
def Obligations.StepStopsOnlyOnAStrayCompletion : Prop :=
  ∀ s : State, s.Inv →
    (s.TimerKept → ∃ t, step s = .next t) ∧
    (¬ s.TimerKept → step s = .fault .unrequestedSleepDone)

/-- R53, R79: a command answered with an error leaves everything as it was but for the response, whose RESULT
is 0; the next command is accepted as usual. -/
def Obligations.ErrorsWriteNothing : Prop :=
  ∀ (s t : State) (c : Command) (rest : List Input) (r : Response),
    s.blocked = none → s.inputs = .command c :: rest → step s = .next t →
    t.outputs.getLast? = some (.response r) → r.st ≠ .ok →
    r.result = 0 ∧ t = { s with inputs := rest, outputs := s.outputs ++ [.response r] }

/-- R80: of the errors of R78 that apply, the lowest-numbered is the response; a command to which none applies
is not answered with an error. -/
def Obligations.LowestApplicableErrorIsTheResponse : Prop :=
  ∀ (s : State) (c : Command) (rest : List Input),
    s.blocked = none → s.inputs = .command c :: rest →
    (∀ e, ErrorApplies c s e → (∀ e', e'.code.toNat < e.code.toNat → ¬ ErrorApplies c s e') →
      step s = .next { s with inputs := rest, outputs := s.outputs ++ [.response ⟨e, 0⟩] }) ∧
    ((∀ e, ¬ ErrorApplies c s e) →
      ∀ t r, step s = .next t → t.outputs.getLast? = some (.response r) → r.st = .ok)

/-- R78, R80: a command that is not well formed is answered with its operand error in every state. -/
def Obligations.OperandErrorsAreAnswered : Prop :=
  ∀ (i : Instr) (e : Status) (s : State), i.operandError = some e →
    exec i s = .next { s with outputs := s.outputs ++ [.response ⟨e, 0⟩] }

/-- R53: an accepted command either responds exactly once, after its events, or is blocked with no response
yet; nothing it or earlier commands produced is lost. -/
def Obligations.OneResponseAfterTheEvents : Prop :=
  ∀ (s t : State) (c : Command) (rest : List Input),
    s.blocked = none → s.inputs = .command c :: rest → step s = .next t →
    ∃ events : List Output, (∀ o ∈ events, o.isResponse = false) ∧
      ((t.blocked = none ∧ ∃ r, t.outputs = s.outputs ++ events ++ [.response r]) ∨
        (t.blocked ≠ none ∧ t.outputs = s.outputs ++ events))

/-- R8, R93: no step changes the parameters, and outputs already produced stay produced. -/
def Obligations.ParametersAreFixedAndOutputsStay : Prop :=
  ∀ s t : State, step s = .next t → t.preamble = s.preamble ∧ s.outputs <+: t.outputs

/-! ### The frame codec -/

/-- R60: ConsumeBit stage by stage, every register's new value as a number and every byte of PBUF. -/
def Obligations.ConsumeBitFollowsTheStages : Prop :=
  ∀ (p : Preamble) (b : Bool) (f g : Frame), f.pbuf.wf → f.overrun = false → g = f.consumeBit p b →
    (f.stage = .preamble →
      g.pre.toNat = (2 * f.pre.toNat + b.toNat) % 2 ^ (8 * p.bytes) ∧
      (g.pre = p.const → g.stage = .size ∧ g.bitpos = 0) ∧
      (g.pre ≠ p.const → g.stage = .preamble ∧ g.bitpos = f.bitpos) ∧
      g.size = f.size ∧ g.csum = f.csum ∧ ∀ i, g.pbuf.read i = f.pbuf.read i) ∧
    (f.stage = .size → f.bitpos.toNat + 1 ≠ 8 →
      g.stage = .size ∧ g.size.toNat = (2 * f.size.toNat + b.toNat) % 256 ∧
      g.bitpos.toNat = f.bitpos.toNat + 1 ∧
      g.pre = f.pre ∧ g.csum = f.csum ∧ ∀ i, g.pbuf.read i = f.pbuf.read i) ∧
    (f.stage = .size → f.bitpos.toNat + 1 = 8 → (2 * f.size.toNat + b.toNat) % 256 = 0 →
      g.stage = .preamble ∧ g.pre = 0 ∧ g.size = 0 ∧ g.csum = 0 ∧ g.bitpos = 0 ∧
      ∀ i, g.pbuf.read i = 0) ∧
    (f.stage = .size → f.bitpos.toNat + 1 = 8 → (2 * f.size.toNat + b.toNat) % 256 ≠ 0 →
      g.stage = .data ∧ g.size.toNat = (2 * f.size.toNat + b.toNat) % 256 ∧ g.bitpos = 0 ∧
      g.pre = f.pre ∧ g.csum = f.csum ∧ ∀ i, g.pbuf.read i = 0) ∧
    (f.stage = .data →
      (g.pbuf.read (f.bitpos.toNat / 8)).toNat =
        (2 * (f.pbuf.read (f.bitpos.toNat / 8)).toNat + b.toNat) % 256 ∧
      (∀ i, i ≠ f.bitpos.toNat / 8 → g.pbuf.read i = f.pbuf.read i) ∧
      (f.bitpos.toNat + 1 = 8 * f.size.toNat → g.stage = .checksum ∧ g.bitpos = 0) ∧
      (f.bitpos.toNat + 1 ≠ 8 * f.size.toNat →
        g.stage = .data ∧ g.bitpos.toNat = f.bitpos.toNat + 1) ∧
      g.pre = f.pre ∧ g.size = f.size ∧ g.csum = f.csum) ∧
    (f.stage = .checksum →
      g.csum.toNat = (2 * f.csum.toNat + b.toNat) % 2 ^ 32 ∧
      (f.bitpos.toNat + 1 = 32 → g.stage = .done ∧ g.bitpos = 0) ∧
      (f.bitpos.toNat + 1 ≠ 32 →
        g.stage = .checksum ∧ g.bitpos.toNat = f.bitpos.toNat + 1) ∧
      g.pre = f.pre ∧ g.size = f.size ∧ ∀ i, g.pbuf.read i = f.pbuf.read i) ∧
    (f.stage = .done → g = f) ∧
    (g.isDone = true ↔ g.stage = .done)

/-- R62: FC_CONSUME_BIT advances the Frame by one bit, answers whether it is DONE, writes nothing else and
produces no event, whatever CFG_OK is. (A bit that would index PBUF past 254 or take BITPOS past its width
faults: the model's choice, log entry 6.) -/
def Obligations.ConsumeBitCommandAnswersIsDone : Prop :=
  ∀ (b : Bool) (s : State),
    (s.fc.overrun = false →
      exec (.fcConsumeBit b) s = .next { s with
        fc := s.fc.consumeBit s.preamble b
        outputs := s.outputs ++
          [.response ⟨.ok, if (s.fc.consumeBit s.preamble b).stage = .done then 1 else 0⟩] }) ∧
    (s.fc.overrun = true → exec (.fcConsumeBit b) s = .fault .frameOverrun)

/-- R17: a step that changes STAGE advances it by one along PREAMBLE, SIZE, DATA, CHECKSUM, DONE, or returns
it to PREAMBLE by a reset of the whole Frame, or is FC_BUILD and sets DONE. -/
def Obligations.StageChangesInThreeWays : Prop :=
  ∀ s t : State, step s = .next t → t.fc.stage ≠ s.fc.stage →
    (s.fc.stage = .preamble ∧ t.fc.stage = .size) ∨ (s.fc.stage = .size ∧ t.fc.stage = .data) ∨
    (s.fc.stage = .data ∧ t.fc.stage = .checksum) ∨ (s.fc.stage = .checksum ∧ t.fc.stage = .done) ∨
    t.fc = ⟨.preamble, 0, 0, 0, 0, []⟩ ∨
    (t.fc.stage = .done ∧ ∃ c rest len, s.inputs = .command c :: rest ∧ decode c = .ok (.fcBuild len))

/-- R61: the check values of CRC32. (The algorithm is the spec's from general knowledge, G1.) -/
def Obligations.Crc32HasItsCheckValues : Prop :=
  crc32 [] = 0x00000000 ∧
  crc32 [0x31, 0x32, 0x33, 0x34, 0x35, 0x36, 0x37, 0x38, 0x39] = 0xCBF43926 ∧
  crc32 [0x54, 0x45, 0x53, 0x54] = 0xEEEA93B8 ∧
  crc32 [0x48, 0x45, 0x4C, 0x4C, 0x4F] = 0xC1446436 ∧
  crc32 [0x42] = 0x4AD0CF31 ∧
  crc32 [0x58, 0x45, 0x53, 0x54] = 0xA43C2C00

/-- R63: FC_RESET, from its word to its effect, in every stage. -/
def Obligations.FrameResetClearsTheFrameOnly : Prop :=
  (∀ c : Command, c.opc = 0x11 →
    (c.cmd = 0x00000011 → decode c = .ok .fcReset) ∧
    (c.cmd ≠ 0x00000011 → decode c = .error .reservedField)) ∧
  ∀ s : State, exec .fcReset s = .next { s with
    fc := ⟨.preamble, 0, 0, 0, 0, []⟩, outputs := s.outputs ++ [.response ⟨.ok, 0⟩] }

/-- R64: FC_IS_VALID compares CRC32 of PBUF[0..SIZE-1] with CSUM in DONE and answers 0 before it; it writes
nothing, and bytes at SIZE and above never affect its answer. -/
def Obligations.IsValidComparesThePayloadsChecksum : Prop :=
  (∀ c : Command, c.opc = 0x12 →
    (c.cmd = 0x00000012 → decode c = .ok .fcIsValid) ∧
    (c.cmd ≠ 0x00000012 → decode c = .error .reservedField)) ∧
  (∀ s : State, exec .fcIsValid s = .next { s with
    outputs := s.outputs ++ [.response ⟨.ok,
      if s.fc.stage = .done ∧
          crc32 ((List.range s.fc.size.toNat).map fun i => s.fc.pbuf.read i) = s.fc.csum
      then 1 else 0⟩] }) ∧
  ∀ (f : Frame) (m : Memory), (∀ i < f.size.toNat, m.read i = f.pbuf.read i) →
    Frame.isValid { f with pbuf := m } = f.isValid

/-- R65: FC_BUILD makes a DONE frame of the first len bytes of PBUF in every stage, reads PBUF and does not
write it; length 0 is refused. -/
def Obligations.BuildMakesADoneFrame : Prop :=
  (∀ c : Command, c.opc = 0x13 →
    (c.cmd &&& 0xFFFF00FF = 0x00000013 → decode c = .ok (.fcBuild c.a)) ∧
    (c.cmd &&& 0xFFFF00FF ≠ 0x00000013 → decode c = .error .reservedField)) ∧
  ∀ (len : Byte) (s : State),
    (len ≠ 0 → exec (.fcBuild len) s = .next { s with
      fc := ⟨.done, s.preamble.const, len,
        crc32 ((List.range len.toNat).map fun i => s.fc.pbuf.read i), 0, s.fc.pbuf⟩
      outputs := s.outputs ++ [.response ⟨.ok, 0⟩] }) ∧
    (len = 0 → exec (.fcBuild len) s = .next { s with
      outputs := s.outputs ++ [.response ⟨.badArg, 0⟩] })

/-- R55, R37, R38: the wire stream is the preamble constant, the size, the payload bytes and the checksum, each
from its most significant bit down. -/
def Obligations.WireStreamIsTheFrameMsbFirst : Prop :=
  ∀ (p : Preamble) (f : Frame),
    f.wireStream p = msbFirst p.const (8 * p.bytes) ++ msbFirst f.size 8
      ++ ((List.range f.size.toNat).map fun i => msbFirst (f.pbuf.read i) 8).flatten
      ++ msbFirst f.csum 32

/-- R56: the wire stream is 8·N + 8 + 8·SIZE + 32 bits long, between 8·N + 48 and 8·N + 2080 for the sizes a
frame can have. -/
def Obligations.WireStreamLength : Prop :=
  ∀ (p : Preamble) (f : Frame),
    (f.wireStream p).length = 8 * p.bytes + 8 + 8 * f.size.toNat + 32 ∧
    (1 ≤ f.size.toNat → 8 * p.bytes + 48 ≤ (f.wireStream p).length ∧
      (f.wireStream p).length ≤ 8 * p.bytes + 2080)

/-- R66, sink 0: in DONE the wire stream goes to the BIT channel and the Frame is left as it was, whatever
CFG_OK is; outside DONE it is refused. -/
def Obligations.SerializeToBitsEmitsTheWireStream : Prop :=
  ∀ s : State,
    (s.fc.stage = .done → exec (.fcSerialize .bits) s = .next { s with
      outputs := s.outputs ++ (s.fc.wireStream s.preamble).map Output.bit ++ [.response ⟨.ok, 0⟩] }) ∧
    (s.fc.stage ≠ .done → exec (.fcSerialize .bits) s = .next { s with
      outputs := s.outputs ++ [.response ⟨.badState, 0⟩] })

/-- R66, sink 1, with R69 and R86: when the timer completes the command's 2·(8·N + 40 + 8·SIZE) requests, the
command completes: per bit the encoder's events, PREV the last bit sent, the Frame as it was. -/
def Obligations.SerializeThroughTheEncoderCompletes : Prop :=
  ∀ (s : State) (rest : List Input),
    s.mlc.cfgOk = true → s.fc.stage = .done → s.blocked = none →
    Env.completions (2 * (8 * s.preamble.bytes + 40 + 8 * s.fc.size.toNat)) s.inputs = some rest →
    exec (.fcSerialize .line) s = .next { s with
      mlc := { s.mlc with prev := s.fc.csum.getLsbD 0 }
      inputs := rest
      outputs := s.outputs ++ lineOutputs s.mlc.prev (s.fc.wireStream s.preamble)
        ++ [.response ⟨.ok, 0⟩] }

/-- R66, R69: the encoder makes 2 SLEEP requests and 1 or 2 SIG events per bit, the second SIG exactly where a
bit equals the one before it, and nothing else. -/
def Obligations.EncodedStreamEventCounts : Prop :=
  ∀ (prev : Bool) (bits : List Bool),
    (lineOutputs prev bits).countP Output.isSleep = 2 * bits.length ∧
    (lineOutputs prev bits).countP Output.isSig =
      bits.length + ((prev :: bits).zip bits).countP (fun x => x.1 == x.2) ∧
    bits.length ≤ (lineOutputs prev bits).countP Output.isSig ∧
    (lineOutputs prev bits).countP Output.isSig ≤ 2 * bits.length ∧
    (lineOutputs prev bits).length =
      (lineOutputs prev bits).countP Output.isSleep + (lineOutputs prev bits).countP Output.isSig ∧
    3 * bits.length ≤ (lineOutputs prev bits).length ∧
    (lineOutputs prev bits).length ≤ 4 * bits.length ∧
    Env.endTime 1 0 (lineOutputs prev bits) = 2 * bits.length

/-- R105: a frame on the encoder sink lasts 2·H·(8·N + 40 + 8·SIZE). -/
def Obligations.EncodedFrameDuration : Prop :=
  ∀ (h t0 : Nat) (prev : Bool) (p : Preamble) (f : Frame),
    Env.endTime h t0 (lineOutputs prev (f.wireStream p)) =
      t0 + 2 * h * (8 * p.bytes + 40 + 8 * f.size.toNat)

/-- R67: bits serialized by one instance and consumed one by one by another, fresh from a frame reset and with
the same nonzero preamble constant, reproduce size, payload and checksum; the receiver passes the stages in
order, each at its own bit, and is DONE exactly on the last. -/
def Obligations.BitLevelRoundTrip : Prop :=
  ∀ (payload : List Byte) (x y : State),
    1 ≤ payload.length → payload.length ≤ 255 → x.preamble.const ≠ 0 →
    x.fc.pbuf.wf → x.blocked = none → y.blocked = none → y.preamble = x.preamble →
    y.fc = ⟨.preamble, 0, 0, 0, 0, []⟩ →
    ∃ (x' x'' : State) (bits : List Bool),
      Env.issue (payload.mapIdx (fun k byte => .pbWrite (BitVec.ofNat 8 k) byte)
        ++ [.fcBuild (BitVec.ofNat 8 payload.length)]) x = some x' ∧
      exec (.fcSerialize .bits) x' = .next x'' ∧
      x''.outputs = x'.outputs ++ bits.map Output.bit ++ [.response ⟨.ok, 0⟩] ∧
      (∀ n ≤ bits.length, ∃ z, Env.issue ((bits.take n).map .fcConsumeBit) y = some z ∧
        z.fc.stage =
          (if n < 8 * x.preamble.bytes then .preamble
          else if n < 8 * x.preamble.bytes + 8 then .size
          else if n < 8 * x.preamble.bytes + 8 + 8 * payload.length then .data
          else if n < bits.length then .checksum
          else .done)) ∧
      ∃ z w, Env.issue (bits.map .fcConsumeBit) y = some z ∧
        z.fc.stage = .done ∧ z.fc.size.toNat = payload.length ∧ z.fc.payload = payload ∧
        z.fc.csum = crc32 payload ∧
        exec .fcIsValid z = .next w ∧ w.outputs = z.outputs ++ [.response ⟨.ok, 1⟩]

/-- R64 corner case 1, R66 corner case 2, E4: corrupting one payload byte of a valid DONE frame makes
FC_IS_VALID answer 0, while STAGE stays DONE and CSUM as it was. -/
def Obligations.CorruptedPayloadByteIsDetected : Prop :=
  ∀ (s : State) (idx byte : Byte),
    s.fc.pbuf.wf → s.fc.isValid = true → idx.toNat < s.fc.size.toNat →
    byte ≠ s.fc.pbuf.read idx.toNat →
    ∃ t u, exec (.pbWrite idx byte) s = .next t ∧ t.fc.stage = .done ∧ t.fc.csum = s.fc.csum ∧
      exec .fcIsValid t = .next u ∧ u.outputs = t.outputs ++ [.response ⟨.ok, 0⟩]

/-- R101: a Frame in DONE ignores every further bit and answers 1 to each. -/
def Obligations.DoneFrameIgnoresBits : Prop :=
  ∀ (bits : List Bool) (s : State), s.fc.stage = .done → s.blocked = none →
    Env.issue (bits.map .fcConsumeBit) s = some { s with
      outputs := s.outputs ++ bits.map fun _ => .response ⟨.ok, 1⟩ }

/-- R62 corner case 2, R18: while the search lasts PRE holds the last 8·N bits, so the search ends at a bit
exactly when the last 8·N bits equal PREAMBLE_CONST, whatever noise came before. -/
def Obligations.PreambleMatchesOnItsLastBits : Prop :=
  ∀ (p : Preamble) (f : Frame) (noise last : List Bool),
    f.stage = .preamble → last.length = 8 * p.bytes →
    (∀ n < (noise ++ last).length, (f.consumeBits p ((noise ++ last).take n)).stage = .preamble) →
    ((f.consumeBits p (noise ++ last)).stage = .size ↔ last = msbFirst p.const (8 * p.bytes))

/-- R58, R60, R81: the eight bits of a size byte, MSB first, at the start of stage SIZE: a nonzero size opens an
empty payload of that size, a zero size resets the Frame. -/
def Obligations.SizeByteOpensOrRejectsTheFrame : Prop :=
  ∀ (s : State) (v : Byte), s.fc.stage = .size → s.fc.bitpos = 0 → s.blocked = none →
    ∃ t, Env.issue (AsmLine.expand s.preamble (.consume8 v)) s = some t ∧
      (v ≠ 0 → t.fc = ⟨.data, s.fc.pre, v, s.fc.csum, 0, []⟩) ∧
      (v = 0 → t.fc = ⟨.preamble, 0, 0, 0, 0, []⟩)

/-! ### The Manchester line codec -/

/-- R68: MC_CONFIG, from its word to its effect: construction of the Manchester state, ORD_ERR and the Frame
kept; its two refusals, the operand width first. -/
def Obligations.ConfigConstructsTheCodec : Prop :=
  (∀ c : Command, c.opc = 0x01 →
    (c.cmd = 0x00000001 → decode c = .ok (.mcConfig c.opa c.opb)) ∧
    (c.cmd ≠ 0x00000001 → decode c = .error .reservedField)) ∧
  ∀ (h se : DWord) (s : State),
    (h.toNat < 2 ^ 32 → se.toNat < 2 ^ 32 → h ≠ 0 → exec (.mcConfig h se) s = .next { s with
      mlc := ⟨BitVec.ofNat 32 h.toNat, BitVec.ofNat 32 se.toNat, false, false, 0, true, s.mlc.ordErr⟩
      outputs := s.outputs ++ [.response ⟨.ok, 0⟩] }) ∧
    (2 ^ 32 ≤ h.toNat ∨ 2 ^ 32 ≤ se.toNat → exec (.mcConfig h se) s = .next { s with
      outputs := s.outputs ++ [.response ⟨.badArg, 0⟩] }) ∧
    (h = 0 → se.toNat < 2 ^ 32 → exec (.mcConfig h se) s = .next { s with
      outputs := s.outputs ++ [.response ⟨.configInvalid, 0⟩] })

/-- R69, R70, R86: MC_ENCODE_BIT completes when the timer completes its two requests: the boundary SIG if the
bit equals PREV, then SLEEP, SIG(b), SLEEP, and PREV = b. -/
def Obligations.EncodeBitEmitsItsBitPeriod : Prop :=
  ∀ (b : Bool) (s : State) (rest : List Input),
    s.mlc.cfgOk = true → s.blocked = none → Env.completions 2 s.inputs = some rest →
    exec (.mcEncodeBit b) s = .next { s with
      mlc := { s.mlc with prev := b }
      inputs := rest
      outputs := s.outputs ++ (if b = s.mlc.prev then [.sig (!b)] else [])
        ++ [.sleep, .sig b, .sleep, .response ⟨.ok, 0⟩] }

/-- R12, R32, R70, R86, R93: when the timer completes only the first k of MC_ENCODE_BIT's two requests (none, or
one), the command is blocked on the next one with no response: EncodingAt says what it has produced and that PREV
is the bit. It stays exactly so while no signal is there (U11); RST, also one that already waits, abandons it;
a completion that comes later has the effect it would have had at once, so that further completions block it
again on a later request or bring it to its end. -/
def Obligations.BlockedEncoderWaitsForTheTimer : Prop :=
  ∀ (b : Bool) (s : State) (k : Nat) (rest : List Input),
    s.mlc.cfgOk = true →
    k < 2 →
    Env.completions k s.inputs = some rest → NoCompletion rest →
    ∃ t : State, exec (.mcEncodeBit b) s = .next t ∧
      s.EncodingAt [b] k rest t ∧
      (takeSignal rest = none → step t = .next t) ∧
      (∀ r, takeSignal rest = some (.reset, r) → ∃ u, step t = .next u ∧
        u.fc = ⟨.preamble, 0, 0, 0, 0, []⟩ ∧ u.mlc = ⟨0, 0, false, false, 0, false, false⟩ ∧
        u.blocked = none ∧ u.preamble = s.preamble ∧ u.outputs = t.outputs) ∧
      (∀ is r, takeSignal is = some (.sleepDone, r) →
        step { t with inputs := is } =
          exec (.mcEncodeBit b) { s with inputs := List.replicate k .sleepDone ++ is }) ∧
      ∀ j is rest', Env.completions j is = some rest' →
        (1 ≤ j → k + j < 2 →
          NoCompletion rest' → ∃ u, step { t with inputs := is } = .next u ∧
            s.EncodingAt [b] (k + j) rest' u) ∧
        (k + j = 2 →
          step { t with inputs := is } = .next { s with
            mlc := { s.mlc with prev := b }
            blocked := none
            inputs := rest'
            outputs := s.outputs ++ (if b = s.mlc.prev then [.sig (!b)] else [])
              ++ [.sleep, .sig b, .sleep, .response ⟨.ok, 0⟩] })

/-- R12, R32, R66, R86, R93: when the timer completes only the first k requests of a frame on the encoder sink, the
command is blocked on the next one with no response: EncodingAt says what it has produced, that PREV is the bit
it is at, and that the Frame is as it was. It stays exactly so while no signal is there (U11); RST, also one that
already waits, abandons it; a completion that comes later has the effect it would have had at once, so that
further completions block it again on a later request or bring it to its end. -/
def Obligations.EncodedFrameResumesWhereItStopped : Prop :=
  ∀ (s : State) (k : Nat) (rest : List Input),
    s.mlc.cfgOk = true → s.fc.stage = .done →
    k < 2 * (8 * s.preamble.bytes + 40 + 8 * s.fc.size.toNat) →
    Env.completions k s.inputs = some rest → NoCompletion rest →
    ∃ t : State, exec (.fcSerialize .line) s = .next t ∧
      s.EncodingAt (s.fc.wireStream s.preamble) k rest t ∧
      (takeSignal rest = none → step t = .next t) ∧
      (∀ r, takeSignal rest = some (.reset, r) → ∃ u, step t = .next u ∧
        u.fc = ⟨.preamble, 0, 0, 0, 0, []⟩ ∧ u.mlc = ⟨0, 0, false, false, 0, false, false⟩ ∧
        u.blocked = none ∧ u.preamble = s.preamble ∧ u.outputs = t.outputs) ∧
      (∀ is r, takeSignal is = some (.sleepDone, r) →
        step { t with inputs := is } =
          exec (.fcSerialize .line) { s with inputs := List.replicate k .sleepDone ++ is }) ∧
      ∀ j is rest', Env.completions j is = some rest' →
        (1 ≤ j → k + j < 2 * (8 * s.preamble.bytes + 40 + 8 * s.fc.size.toNat) →
          NoCompletion rest' → ∃ u, step { t with inputs := is } = .next u ∧
            s.EncodingAt (s.fc.wireStream s.preamble) (k + j) rest' u) ∧
        (k + j = 2 * (8 * s.preamble.bytes + 40 + 8 * s.fc.size.toNat) →
          step { t with inputs := is } = .next { s with
            mlc := { s.mlc with prev := s.fc.csum.getLsbD 0 }
            blocked := none
            inputs := rest'
            outputs := s.outputs ++ lineOutputs s.mlc.prev (s.fc.wireStream s.preamble)
              ++ [.response ⟨.ok, 0⟩] })

/-- R97: while a command is blocked no other command is accepted: the commands that wait at the port are the
same before and after the step, in the same order; without a signal nothing happens at all. (That they are the
same also after a step that is RST is the model's choice, log entry 1.) -/
def Obligations.PortIsHeldWhileBlocked : Prop :=
  ∀ s : State, s.blocked ≠ none →
    (takeSignal s.inputs = none → step s = .next s) ∧
    ∀ t, step s = .next t → t.inputs.filter Input.isCommand = s.inputs.filter Input.isCommand

/-- R72: the classifier's bands, with the rule's numbers for H = 1000 and S = 600. -/
def Obligations.ClassifierBands : Prop :=
  ∀ (m : Mlc) (elapsed : Int), m.halfPeriod ≠ 0 →
    (∀ k : Int, m.multiplier elapsed = k ↔
      (m.sensitivity.toNat : Int) + (k - 1) * m.halfPeriod.toNat ≤ elapsed ∧
        elapsed < (m.sensitivity.toNat : Int) + k * m.halfPeriod.toNat) ∧
    (EdgeClass.ofMultiplier (m.multiplier elapsed) = .desync ↔
      elapsed < m.sensitivity.toNat ∨
        (m.sensitivity.toNat : Int) + 3 * m.halfPeriod.toNat ≤ elapsed) ∧
    (EdgeClass.ofMultiplier (m.multiplier elapsed) = .skip ↔
      (m.sensitivity.toNat : Int) + m.halfPeriod.toNat ≤ elapsed ∧
        elapsed < (m.sensitivity.toNat : Int) + 2 * m.halfPeriod.toNat) ∧
    (EdgeClass.ofMultiplier (m.multiplier elapsed) = .data ↔
      ((m.sensitivity.toNat : Int) ≤ elapsed ∧
        elapsed < (m.sensitivity.toNat : Int) + m.halfPeriod.toNat) ∨
      ((m.sensitivity.toNat : Int) + 2 * m.halfPeriod.toNat ≤ elapsed ∧
        elapsed < (m.sensitivity.toNat : Int) + 3 * m.halfPeriod.toNat)) ∧
    (5 * m.sensitivity.toNat = 3 * m.halfPeriod.toNat →
      (EdgeClass.ofMultiplier (m.multiplier elapsed) = .desync ↔
        5 * elapsed < 3 * m.halfPeriod.toNat ∨ 18 * m.halfPeriod.toNat ≤ 5 * elapsed) ∧
      (EdgeClass.ofMultiplier (m.multiplier elapsed) = .skip ↔
        8 * m.halfPeriod.toNat ≤ 5 * elapsed ∧ 5 * elapsed < 13 * m.halfPeriod.toNat)) ∧
    (m.halfPeriod = 1000 → m.sensitivity = 600 →
      EdgeClass.ofMultiplier (m.multiplier 599) = .desync ∧
      EdgeClass.ofMultiplier (m.multiplier 600) = .data ∧
      EdgeClass.ofMultiplier (m.multiplier 1599) = .data ∧
      EdgeClass.ofMultiplier (m.multiplier 1600) = .skip ∧
      EdgeClass.ofMultiplier (m.multiplier 2599) = .skip ∧
      EdgeClass.ofMultiplier (m.multiplier 2600) = .data ∧
      EdgeClass.ofMultiplier (m.multiplier 3599) = .data ∧
      EdgeClass.ofMultiplier (m.multiplier 3600) = .desync)

/-- R73, step 1: an edge while unsynchronized is the reference and gives its bit unconditionally, to the BIT
channel or to the Frame. -/
def Obligations.UnsynchronizedEdgeGivesItsBit : Prop :=
  ∀ (dir : Direction) (ts : DWord) (s : State), s.mlc.cfgOk = true → s.mlc.syncV = false →
    exec (.mcDecodeEdge dir .channel ts) s = .next { s with
      mlc := { s.mlc with syncV := true, lastTs := ts }
      outputs := s.outputs ++ [.bit dir.bit, .response ⟨.ok, BitVec.ofNat 64
        (1 + 2 * dir.bit.toNat + 16 * s.fc.isDone.toNat)⟩] } ∧
    (s.fc.overrun = false → exec (.mcDecodeEdge dir .frame ts) s = .next { s with
      mlc := { s.mlc with syncV := true, lastTs := ts }
      fc := s.fc.consumeBit s.preamble dir.bit
      outputs := s.outputs ++ [.response ⟨.ok, BitVec.ofNat 64
        (1 + 2 * dir.bit.toNat + 16 * (s.fc.consumeBit s.preamble dir.bit).isDone.toNat)⟩] })

/-- R73, step 2, with R71 and R72: a synchronized edge by its distance from LAST_TS. SKIP and DATA take it as
the reference, DESYNC drops the reference and keeps LAST_TS; only DATA gives the edge's bit. A timestamp below
LAST_TS is DESYNC and sets ORD_ERR. -/
def Obligations.SynchronizedEdgeFollowsTheClassifier : Prop :=
  ∀ (dir : Direction) (route : Route) (ts : DWord) (s : State) (elapsed h se : Int),
    s.mlc.cfgOk = true → s.mlc.syncV = true → s.mlc.halfPeriod ≠ 0 →
    elapsed = (ts.toNat : Int) - s.mlc.lastTs.toNat → h = s.mlc.halfPeriod.toNat →
    se = s.mlc.sensitivity.toNat →
    ((elapsed < se ∨ se + 3 * h ≤ elapsed) →
      exec (.mcDecodeEdge dir route ts) s = .next { s with
        mlc := { s.mlc with syncV := false, ordErr := s.mlc.ordErr || decide (elapsed < 0) }
        outputs := s.outputs ++
          [.response ⟨.ok, BitVec.ofNat 64 (12 + 16 * s.fc.isDone.toNat)⟩] }) ∧
    ((se + h ≤ elapsed ∧ elapsed < se + 2 * h) →
      exec (.mcDecodeEdge dir route ts) s = .next { s with
        mlc := { s.mlc with lastTs := ts }
        outputs := s.outputs ++
          [.response ⟨.ok, BitVec.ofNat 64 (8 + 16 * s.fc.isDone.toNat)⟩] }) ∧
    ((se ≤ elapsed ∧ elapsed < se + h) ∨ (se + 2 * h ≤ elapsed ∧ elapsed < se + 3 * h) →
      (route = .channel → exec (.mcDecodeEdge dir route ts) s = .next { s with
        mlc := { s.mlc with lastTs := ts }
        outputs := s.outputs ++ [.bit dir.bit, .response ⟨.ok, BitVec.ofNat 64
          (5 + 2 * dir.bit.toNat + 16 * s.fc.isDone.toNat)⟩] }) ∧
      (route = .frame → s.fc.overrun = false → exec (.mcDecodeEdge dir route ts) s = .next { s with
        mlc := { s.mlc with lastTs := ts }
        fc := s.fc.consumeBit s.preamble dir.bit
        outputs := s.outputs ++ [.response ⟨.ok, BitVec.ofNat 64
          (5 + 2 * dir.bit.toNat + 16 * (s.fc.consumeBit s.preamble dir.bit).isDone.toNat)⟩] }))

/-- R29: MC_ENCODE_BIT, MC_DECODE_EDGE and FC_SERIALIZE with the encoder sink are refused while CFG_OK is 0;
only a successful MC_CONFIG writes CFG_OK, and sets it; its reset value is 0. -/
def Obligations.UnconfiguredCodecRefuses : Prop :=
  (∀ (i : Instr) (s : State), s.mlc.cfgOk = false →
    (∃ b, i = .mcEncodeBit b) ∨ (∃ dir route ts, i = .mcDecodeEdge dir route ts) ∨
      i = .fcSerialize .line →
    exec i s = .next { s with outputs := s.outputs ++ [.response ⟨.notConfigured, 0⟩] }) ∧
  (∀ (i : Instr) (s t : State), exec i s = .next t → t.mlc.cfgOk ≠ s.mlc.cfgOk →
    ∃ h se, i = .mcConfig h se ∧ i.WellFormed ∧ t.mlc.cfgOk = true) ∧
  State.reset.mlc.cfgOk = false

/-- R30: ORD_ERR is set by MC_DECODE_EDGE exactly when SYNC_V = 1 and the timestamp is less than LAST_TS; no
command clears it; only hardware reset does. -/
def Obligations.OrderErrorIsStickyUntilHardwareReset : Prop :=
  (∀ (i : Instr) (s t : State), exec i s = .next t →
    (t.mlc.ordErr = true ↔ s.mlc.ordErr = true ∨
      ∃ dir route ts, i = .mcDecodeEdge dir route ts ∧ s.mlc.cfgOk = true ∧ s.mlc.syncV = true ∧
        ts.toNat < s.mlc.lastTs.toNat)) ∧
  (∀ s t : State, step s = .next t → s.mlc.ordErr = true → t.mlc.ordErr = false →
    ∃ u, s.fetch = .reset u) ∧
  State.reset.mlc.ordErr = false

/-- R106, R105: a bit started at t0 puts its boundary SIG, if any, at t0, its data SIG at t0 + H, and ends at
t0 + 2·H, where the next bit starts. -/
def Obligations.BitPeriodTimeline : Prop :=
  ∀ (h t0 : Nat) (prev b : Bool) (bits : List Bool),
    Env.timeline h t0 (lineOutputs prev (b :: bits)) =
      (if b = prev then [(t0, .sig (!b))] else [])
        ++ [(t0, .sleep), (t0 + h, .sig b), (t0 + h, .sleep)]
        ++ Env.timeline h (t0 + 2 * h) (lineOutputs b bits) ∧
    Env.endTime h t0 (lineOutputs prev (b :: bits)) =
      t0 + 2 * h * (bits.length + 1)

/-- R74: on an ideal line, between the data edges of two bits that differ lies 2·H and the classifier drops the
second; two equal bits put a boundary edge H after the first data edge and the classifier emits it. (For the
sensitivities 0 < S ≤ H.) -/
def Obligations.EncodedEdgesAreMisread : Prop :=
  ∀ (h t0 : Nat) (a b : Bool) (m : Mlc),
    m.halfPeriod.toNat = h → h ≠ 0 → 0 < m.sensitivity.toNat → m.sensitivity.toNat ≤ h →
    m.syncV = true → m.lastTs.toNat = t0 + h → t0 + 3 * h < 2 ^ 64 →
    (a ≠ b →
      Env.lineEdges (!a) (Env.timeline h t0 (lineOutputs (!a) [a, b])) =
        [(Direction.ofBit a, t0 + h), (Direction.ofBit b, t0 + 3 * h)] ∧
      m.classify (BitVec.ofNat 64 (t0 + 3 * h)) = .skip) ∧
    (a = b →
      Env.lineEdges (!a) (Env.timeline h t0 (lineOutputs (!a) [a, b])) =
        [(Direction.ofBit a, t0 + h), (Direction.ofBit (!a), t0 + 2 * h),
          (Direction.ofBit a, t0 + 3 * h)] ∧
      m.classify (BitVec.ofNat 64 (t0 + 2 * h)) = .data)

/-! ### Host access and the whole machine -/

/-- R75: PB_WRITE stores one byte, in every stage, and nothing else changes; index 255 is refused. -/
def Obligations.PayloadWriteStoresOneByte : Prop :=
  (∀ c : Command, c.opc = 0x20 →
    (c.cmd &&& 0xFF0000FF = 0x00000020 → decode c = .ok (.pbWrite c.a c.d)) ∧
    (c.cmd &&& 0xFF0000FF ≠ 0x00000020 → decode c = .error .reservedField)) ∧
  ∀ (idx byte : Byte) (s : State), s.fc.pbuf.wf →
    (idx ≠ 255 → ∃ m, exec (.pbWrite idx byte) s = .next { s with
        fc := { s.fc with pbuf := m }
        outputs := s.outputs ++ [.response ⟨.ok, 0⟩] } ∧
      m.read idx.toNat = byte ∧ (∀ j, j ≠ idx.toNat → m.read j = s.fc.pbuf.read j) ∧ m.wf) ∧
    (idx = 255 → exec (.pbWrite idx byte) s = .next { s with
      outputs := s.outputs ++ [.response ⟨.badArg, 0⟩] })

/-- R76: PB_READ returns the byte, zero-extended, in every stage; index 255 is refused. -/
def Obligations.PayloadReadReturnsTheByte : Prop :=
  (∀ c : Command, c.opc = 0x21 →
    (c.cmd &&& 0xFFFF00FF = 0x00000021 → decode c = .ok (.pbRead c.a)) ∧
    (c.cmd &&& 0xFFFF00FF ≠ 0x00000021 → decode c = .error .reservedField)) ∧
  ∀ (idx : Byte) (s : State),
    (idx ≠ 255 → exec (.pbRead idx) s = .next { s with
      outputs := s.outputs ++ [.response ⟨.ok, BitVec.ofNat 64 (s.fc.pbuf.read idx.toNat).toNat⟩] }) ∧
    (idx = 255 → exec (.pbRead idx) s = .next { s with
      outputs := s.outputs ++ [.response ⟨.badArg, 0⟩] })

/-- R77, R35, R31, R16: REG_READ's selector map, every value as a number; reserved selectors are refused. -/
def Obligations.RegisterReadFollowsTheSelectorMap : Prop :=
  (∀ c : Command, c.opc = 0x30 →
    (c.cmd &&& 0xFFFF00FF = 0x00000030 → decode c = .ok (.regRead c.a)) ∧
    (c.cmd &&& 0xFFFF00FF ≠ 0x00000030 → decode c = .error .reservedField)) ∧
  ∀ (sel : Byte) (s : State),
    (sel.toNat < 12 → ∃ r : DWord,
      exec (.regRead sel) s = .next { s with outputs := s.outputs ++ [.response ⟨.ok, r⟩] } ∧
      (sel = 0 → r.toNat = match s.fc.stage with
        | .preamble => 0 | .size => 1 | .data => 2 | .checksum => 3 | .done => 4) ∧
      (sel = 1 → r.toNat = s.fc.pre.toNat) ∧ (sel = 2 → r.toNat = s.fc.size.toNat) ∧
      (sel = 3 → r.toNat = s.fc.csum.toNat) ∧ (sel = 4 → r.toNat = s.fc.bitpos.toNat) ∧
      (sel = 5 → r.toNat = s.mlc.halfPeriod.toNat) ∧
      (sel = 6 → r.toNat = s.mlc.sensitivity.toNat) ∧
      (sel = 7 → r.toNat = s.mlc.prev.toNat) ∧ (sel = 8 → r = s.mlc.lastTs) ∧
      (sel = 9 → r.toNat =
        4 * s.mlc.ordErr.toNat + 2 * s.mlc.syncV.toNat + s.mlc.cfgOk.toNat) ∧
      (sel = 10 → r.toNat = s.preamble.bytes) ∧ (sel = 11 → r.toNat = s.preamble.const.toNat)) ∧
    (12 ≤ sel.toNat → exec (.regRead sel) s = .next { s with
      outputs := s.outputs ++ [.response ⟨.badArg, 0⟩] })

/-- R42: PB_READ, REG_READ and FC_IS_VALID write nothing but their response, and give the same response when
repeated. -/
def Obligations.QueriesHaveNoSideEffects : Prop :=
  ∀ (i : Instr) (s : State),
    (∃ idx, i = .pbRead idx) ∨ (∃ sel, i = .regRead sel) ∨ i = .fcIsValid →
    ∃ r, exec i s = .next { s with outputs := s.outputs ++ [.response r] } ∧
      exec i { s with outputs := s.outputs ++ [.response r] } =
        .next { s with outputs := s.outputs ++ [.response r, .response r] }

/-- R42, R88: BIT events come from FC_SERIALIZE with sink 0 and MC_DECODE_EDGE with route 0 only, SIG and SLEEP
events from MC_ENCODE_BIT and FC_SERIALIZE with sink 1 only. -/
def Obligations.EventsComeFromTheirCommands : Prop :=
  ∀ (i : Instr) (s t : State), exec i s = .next t →
    ∃ produced, t.outputs = s.outputs ++ produced ∧ ∀ o ∈ produced,
      (∀ b, o = .bit b → i = .fcSerialize .bits ∨ ∃ dir ts, i = .mcDecodeEdge dir .channel ts) ∧
      ((o = .sleep ∨ ∃ l, o = .sig l) → i = .fcSerialize .line ∨ ∃ b, i = .mcEncodeBit b)

/-- 10_state.md section 6: a register changes only by a command its row of the summary table names. -/
def Obligations.RegistersAreWrittenByTheirNamedCommands : Prop :=
  ∀ (i : Instr) (s t : State), exec i s = .next t →
    (t.fc.stage ≠ s.fc.stage ∨ t.fc.pre ≠ s.fc.pre ∨ t.fc.size ≠ s.fc.size ∨
        t.fc.csum ≠ s.fc.csum ∨ t.fc.bitpos ≠ s.fc.bitpos →
      (∃ b, i = .fcConsumeBit b) ∨ (∃ dir ts, i = .mcDecodeEdge dir .frame ts) ∨
        (∃ len, i = .fcBuild len) ∨ i = .fcReset) ∧
    (t.fc.pbuf ≠ s.fc.pbuf →
      (∃ b, i = .fcConsumeBit b) ∨ (∃ dir ts, i = .mcDecodeEdge dir .frame ts) ∨ i = .fcReset ∨
        ∃ idx byte, i = .pbWrite idx byte) ∧
    (t.mlc.halfPeriod ≠ s.mlc.halfPeriod ∨ t.mlc.sensitivity ≠ s.mlc.sensitivity ∨
        t.mlc.cfgOk ≠ s.mlc.cfgOk →
      ∃ h se, i = .mcConfig h se) ∧
    (t.mlc.prev ≠ s.mlc.prev →
      (∃ b, i = .mcEncodeBit b) ∨ i = .fcSerialize .line ∨ ∃ h se, i = .mcConfig h se) ∧
    (t.mlc.syncV ≠ s.mlc.syncV ∨ t.mlc.lastTs ≠ s.mlc.lastTs →
      (∃ dir route ts, i = .mcDecodeEdge dir route ts) ∨ ∃ h se, i = .mcConfig h se) ∧
    (t.mlc.ordErr ≠ s.mlc.ordErr → ∃ dir route ts, i = .mcDecodeEdge dir route ts)

/-- R90: a system of instances is their product. Stepping instance k puts step's next state of it in its place
and leaves every other instance as it was; there is no step of instance k where its own step answers no next
state or there is no such instance; and the steps of two different instances can be taken in either order. (That
a system is a list stepped by Env.stepInstance is the model's choice, log entry 8.) -/
def Obligations.InstancesShareNothing : Prop :=
  (∀ (system : List State) (k : Nat) (s t : State), system[k]? = some s → step s = .next t →
    ∃ next, Env.stepInstance k system = some next ∧ next[k]? = some t ∧
      next.length = system.length ∧ ∀ j, j ≠ k → next[j]? = system[j]?) ∧
  (∀ (system next : List State) (k : Nat), Env.stepInstance k system = some next →
    ∃ s t, system[k]? = some s ∧ step s = .next t ∧ next[k]? = some t ∧
      ∀ j, j ≠ k → next[j]? = system[j]?) ∧
  ∀ (system : List State) (j k : Nat), j ≠ k →
    (Env.stepInstance j system).bind (Env.stepInstance k) =
      (Env.stepInstance k system).bind (Env.stepInstance j)
end

