-- ==== Sys2Proof/Laws/Decode.lean ====
section
/-! SUPPORT. The fields of an encoded command word read back, the opcode lookup, and what the decoder
answers in its three cases. -/

namespace Sys2Proof

theorem ofCode?_code (o : Opcode) : Opcode.ofCode? o.code = some o := by cases o <;> decide

theorem ofCode?_eq_some {x : Byte} {o : Opcode} (h : Opcode.ofCode? x = some o) : o.code = x := by
  simpa using List.find?_some h

theorem ofCode?_eq_none {x : Byte} (h : Opcode.ofCode? x = none) (o : Opcode) : o.code ≠ x := by
  rintro rfl
  rw [ofCode?_code] at h
  exact absurd h (by simp)

/-- The three answers of the decoder, in the order of its checks (R50). -/
theorem decode_cases (c : Command) :
    ((∀ o : Opcode, o.code ≠ c.opc) ∧ decode c = .error .illegalOpcode) ∨
    (∃ o : Opcode, o.code = c.opc ∧ c.cmd &&& o.mask ≠ o.matchWord ∧
      decode c = .error .reservedField) ∨
    (∃ o : Opcode, o.code = c.opc ∧ c.cmd &&& o.mask = o.matchWord ∧ decode c = .ok (o.instr c)) := by
  rw [decode]
  split
  · exact .inl ⟨ofCode?_eq_none ‹_›, rfl⟩
  · next o h =>
    split
    · exact .inr (.inr ⟨o, ofCode?_eq_some h, ‹_›, rfl⟩)
    · exact .inr (.inl ⟨o, ofCode?_eq_some h, ‹_›, rfl⟩)

/-- A command whose opcode is assigned and whose fixed bits are right is its opcode's operation. -/
theorem decode_of_mask {c : Command} (o : Opcode) (hc : c.opc = o.code)
    (hm : c.cmd &&& o.mask = o.matchWord) : decode c = .ok (o.instr c) := by
  rw [decode, hc, ofCode?_code]
  exact if_pos hm

theorem decode_of_not_mask {c : Command} (o : Opcode) (hc : c.opc = o.code)
    (hm : c.cmd &&& o.mask ≠ o.matchWord) : decode c = .error .reservedField := by
  rw [decode, hc, ofCode?_code]
  exact if_neg hm

/-- A command word with no unused bit set has the opcode its low byte matches. -/
theorem opc_of_mask {c : Command} (o : Opcode) (hm : c.cmd &&& o.mask = o.matchWord) :
    c.opc = o.code := by
  apply BitVec.eq_of_getLsbD_eq
  intro i hi
  have h := congrArg (fun v => v.getLsbD i) hm
  have hmask : o.mask.getLsbD i = true := by cases o <;> interval_cases i <;> decide
  simp only [BitVec.getLsbD_and, hmask, Bool.and_true, Opcode.matchWord, BitVec.getLsbD_setWidth] at h
  simpa [Command.opc, hi, show i < 32 by omega] using h

section
variable (o : Opcode) (a d : Byte) (b r : Bool) (x y : DWord)

/-- Bit i of a command word built from its fields (R48). -/
theorem cmdWord_getLsbD (i : Nat) : (cmdWord o a d b r).getLsbD i =
    if i < 8 then o.code.getLsbD i else if i < 16 then a.getLsbD (i - 8)
    else if i < 24 then d.getLsbD (i - 16) else if i = 24 then b else if i = 25 then r else false := by
  unfold cmdWord
  simp only [BitVec.getLsbD_append, BitVec.getLsbD_ofBool]
  split_ifs <;> first | rfl | omega | simp_all

@[simp] theorem opc_cmdWord : Command.opc ⟨cmdWord o a d b r, x, y⟩ = o.code := by
  apply BitVec.eq_of_getLsbD_eq
  intro i hi
  simp [Command.opc, cmdWord_getLsbD, hi]

@[simp] theorem a_cmdWord : Command.a ⟨cmdWord o a d b r, x, y⟩ = a := by
  apply BitVec.eq_of_getLsbD_eq
  intro i hi
  simp [Command.a, cmdWord_getLsbD, hi, show 8 + i < 16 by omega]

@[simp] theorem d_cmdWord : Command.d ⟨cmdWord o a d b r, x, y⟩ = d := by
  apply BitVec.eq_of_getLsbD_eq
  intro i hi
  simp [Command.d, cmdWord_getLsbD, hi, show ¬ 16 + i < 16 by omega, show ¬ 16 + i < 8 by omega,
    show 16 + i < 24 by omega]

@[simp] theorem b_cmdWord : Command.b ⟨cmdWord o a d b r, x, y⟩ = b := by
  rw [Command.b, cmdWord_getLsbD]; rfl

@[simp] theorem r_cmdWord : Command.r ⟨cmdWord o a d b r, x, y⟩ = r := by
  rw [Command.r, cmdWord_getLsbD]; rfl

end

/-- A command word is the word built from the fields read from it, when its reserved bits are 0. -/
theorem cmd_eq_cmdWord {c : Command} {o : Opcode} (ho : c.opc = o.code)
    (hres : ∀ i, 26 ≤ i → c.cmd.getLsbD i = false) : c.cmd = cmdWord o c.a c.d c.b c.r := by
  apply BitVec.eq_of_getLsbD_eq
  intro i hi
  rw [cmdWord_getLsbD, ← ho]
  split_ifs with h1 h2 h3 h4 h5
  · simp [Command.opc, h1]
  · simp [Command.a, show i - 8 < 8 by omega, show 8 + (i - 8) = i by omega]
  · simp [Command.d, show i - 16 < 8 by omega, show 16 + (i - 16) = i by omega]
  · rw [h4]; rfl
  · rw [h5]; rfl
  · exact hres i (by omega)

end Sys2Proof
end

