-- ==== Sys2Proof/Laws/Accepted.lean ====
section
/-! SUPPORT. What an accepted command word says about its fields, the mask table of R50 against the decoder's
own masks, and a command word as a number. -/

namespace Sys2Proof.Machine

theorem instr_opcode (o : Opcode) (c : Command) : (o.instr c).opcode = o := by cases o <;> rfl

/-- Each row of the table as the spec prints it is an opcode's row. -/
theorem row_of_opcode {row : Byte × Word} (h : row ∈ maskTable) :
    ∃ o : Opcode, row = (o.code, o.mask) := by
  fin_cases h
  exacts [⟨.mcConfig, rfl⟩, ⟨.fcReset, rfl⟩, ⟨.fcIsValid, rfl⟩, ⟨.mcEncodeBit, rfl⟩,
    ⟨.fcConsumeBit, rfl⟩, ⟨.mcDecodeEdge, rfl⟩, ⟨.fcSerialize, rfl⟩, ⟨.fcBuild, rfl⟩, ⟨.pbRead, rfl⟩,
    ⟨.regRead, rfl⟩, ⟨.pbWrite, rfl⟩]

theorem opcode_row (o : Opcode) : (o.code, o.mask) ∈ maskTable := by cases o <;> decide

variable {c : Command}

/-- A fixed bit above OPC is 0 in an accepted word. -/
theorem fixed_bit_zero {o : Opcode} (hm : c.cmd &&& o.mask = o.matchWord) {i : Nat}
    (hk : o.mask.getLsbD i = true) (h8 : 8 ≤ i) : c.cmd.getLsbD i = false := by
  have h := congrArg (fun v => v.getLsbD i) hm
  simp only [BitVec.getLsbD_and, hk, Bool.and_true, Opcode.matchWord, BitVec.getLsbD_setWidth] at h
  rw [h, BitVec.getLsbD_of_ge _ _ h8]; simp

/-- The reserved bits of an accepted word are 0 (R48). -/
theorem reserved_zero {o : Opcode} (hm : c.cmd &&& o.mask = o.matchWord) {i : Nat} (hi : 26 ≤ i) :
    c.cmd.getLsbD i = false := by
  by_cases h : i < 32
  · exact fixed_bit_zero hm (by cases o <;> interval_cases i <;> decide) (by omega)
  · exact BitVec.getLsbD_of_ge _ _ (by omega)

theorem a_zero (h : ∀ i, 8 ≤ i → i < 16 → c.cmd.getLsbD i = false) : c.a = 0 := by
  apply BitVec.eq_of_getLsbD_eq
  intro i hi
  simp [Command.a, hi, h (8 + i) (by omega) (by omega)]

theorem d_zero (h : ∀ i, 16 ≤ i → i < 24 → c.cmd.getLsbD i = false) : c.d = 0 := by
  apply BitVec.eq_of_getLsbD_eq
  intro i hi
  simp [Command.d, hi, h (16 + i) (by omega) (by omega)]

theorem append_toNat {n m : Nat} (x : BitVec n) (y : BitVec m) :
    (x ++ y).toNat = x.toNat * 2 ^ m + y.toNat := by
  rw [BitVec.toNat_append, Nat.shiftLeft_eq, Nat.mul_comm, ← Nat.two_pow_add_eq_or_of_lt y.isLt]

/-- A command word as a number (R57). -/
theorem cmdWord_toNat (o : Opcode) (a d : Byte) (b r : Bool) : (cmdWord o a d b r).toNat =
    o.code.toNat + a.toNat * 2 ^ 8 + d.toNat * 2 ^ 16 + b.toNat * 2 ^ 24 + r.toNat * 2 ^ 25 := by
  unfold cmdWord
  simp only [append_toNat, BitVec.toNat_ofBool, BitVec.toNat_ofNat]
  norm_num
  ring

end Sys2Proof.Machine
end

