-- ==== Sys2Proof/Laws/Bits.lean ====
section
/-! SUPPORT. Shifting bits in and taking them out: the arithmetic of shiftIn, and that a field's bits, MSB
first, shift back into the field. -/

namespace Sys2Proof.Machine

theorem append_bool_toNat {w : Nat} (v : BitVec w) (b : Bool) :
    (v ++ BitVec.ofBool b).toNat = 2 * v.toNat + b.toNat := by
  rw [BitVec.toNat_append, BitVec.toNat_ofBool, Nat.shiftLeft_eq]
  have hb : b.toNat < 2 ^ 1 := by cases b <;> decide
  rw [Nat.mul_comm, ← Nat.two_pow_add_eq_or_of_lt hb]

/-- The value of a shift (R9): twice the old value plus the bit, reduced to the width. -/
theorem shiftIn_toNat {w : Nat} (v : BitVec w) (b : Bool) :
    (shiftIn v b).toNat = (2 * v.toNat + b.toNat) % 2 ^ w := by
  rw [shiftIn, BitVec.toNat_setWidth, append_bool_toNat]

theorem preamble_width_le (p : Preamble) : 8 * p.bytes ≤ 32 := by
  cases p <;> simp [Preamble.bytes]

theorem preamble_bytes_pos (p : Preamble) : 1 ≤ p.bytes := by
  cases p <;> simp [Preamble.bytes]

/-- PREAMBLE_CONST fits the preamble's width (R7). -/
theorem preamble_const_lt (p : Preamble) : p.const.toNat < 2 ^ (8 * p.bytes) := by
  cases p <;> simp only [Preamble.const, Preamble.bytes, BitVec.toNat_setWidth] <;> omega

/-- The value of PRE after a shift (R18). -/
theorem shiftPre_toNat (p : Preamble) (pre : Word) (b : Bool) :
    (shiftPre p pre b).toNat = (2 * pre.toNat + b.toNat) % 2 ^ (8 * p.bytes) := by
  have h : (2 * pre.toNat + b.toNat) % 2 ^ (8 * p.bytes) < 2 ^ 32 :=
    lt_of_lt_of_le (Nat.mod_lt _ (by positivity))
      (Nat.pow_le_pow_right (by decide) (preamble_width_le p))
  rw [shiftPre, BitVec.toNat_setWidth, BitVec.toNat_setWidth, append_bool_toNat,
    Nat.mod_eq_of_lt h]

theorem shiftPre_lt (p : Preamble) (pre : Word) (b : Bool) :
    (shiftPre p pre b).toNat < 2 ^ (8 * p.bytes) := by
  rw [shiftPre_toNat]; exact Nat.mod_lt _ (by positivity)

@[simp] theorem bitsMSB_length {n : Nat} (v : BitVec n) (w : Nat) : (bitsMSB v w).length = w := by
  induction w with
  | zero => rfl
  | succ w ih => simp [bitsMSB, ih]

/-- The first bit of a w-bit field is bit w-1 of its value (R37). -/
theorem bitsMSB_eq_range {n : Nat} (v : BitVec n) (w : Nat) :
    bitsMSB v w = (List.range w).map fun j => v.getLsbD (w - 1 - j) := by
  induction w with
  | zero => rfl
  | succ w ih =>
    rw [bitsMSB, ih, List.range_succ_eq_map, List.map_cons, List.map_map]
    congr 1
    refine List.map_congr_left fun j _ => ?_
    simp only [Function.comp]
    congr 1
    omega

/-- The number a bit list stands for after u, most significant bit first. -/
def bitsValue (u : Nat) (bs : List Bool) : Nat := bs.foldl (fun a b => 2 * a + b.toNat) u

@[simp] theorem bitsValue_nil (u : Nat) : bitsValue u [] = u := rfl

@[simp] theorem bitsValue_cons (u : Nat) (b : Bool) (bs : List Bool) :
    bitsValue u (b :: bs) = bitsValue (2 * u + b.toNat) bs := rfl

theorem bitsValue_append (u : Nat) (xs ys : List Bool) :
    bitsValue u (xs ++ ys) = bitsValue (bitsValue u xs) ys := List.foldl_append

theorem bitsValue_eq (u : Nat) (bs : List Bool) :
    bitsValue u bs = u * 2 ^ bs.length + bitsValue 0 bs := by
  induction bs generalizing u with
  | nil => simp
  | cons b bs ih =>
    rw [bitsValue_cons, ih, bitsValue_cons, ih (2 * 0 + b.toNat), List.length_cons, Nat.pow_succ]
    ring

theorem bitsValue_lt (bs : List Bool) : bitsValue 0 bs < 2 ^ bs.length := by
  induction bs with
  | nil => simp
  | cons b bs ih =>
    rw [bitsValue_cons, bitsValue_eq, List.length_cons, Nat.pow_succ]
    cases b <;> simp <;> omega

theorem testBit_toNat_eq (v i : Nat) : (v.testBit i).toNat = v / 2 ^ i % 2 := by
  rw [Nat.testBit_eq_decide_div_mod_eq]
  rcases Nat.mod_two_eq_zero_or_one (v / 2 ^ i) with h | h <;> simp [h]

/-- A field's bits, MSB first, stand for its value. -/
theorem bitsValue_bitsMSB {n : Nat} (v : BitVec n) (w u : Nat) :
    bitsValue u (bitsMSB v w) = u * 2 ^ w + v.toNat % 2 ^ w := by
  induction w generalizing u with
  | zero => simp [bitsMSB, Nat.mod_one]
  | succ w ih =>
    rw [bitsMSB, bitsValue_cons, ih, Nat.pow_succ, Nat.mod_mul, BitVec.getLsbD, testBit_toNat_eq]
    ring

/-- Shifting a bit list into a register leaves the low bits of the number it stands for. -/
theorem foldl_shiftIn_toNat {w : Nat} (v : BitVec w) (bs : List Bool) :
    (bs.foldl shiftIn v).toNat = bitsValue v.toNat bs % 2 ^ w := by
  induction bs generalizing v with
  | nil => simp [Nat.mod_eq_of_lt v.isLt]
  | cons b bs ih =>
    rw [List.foldl_cons, ih, shiftIn_toNat, bitsValue_cons, bitsValue_eq,
      bitsValue_eq (2 * v.toNat + b.toNat)]
    simp [Nat.add_mod, Nat.mul_mod]

theorem foldl_shiftPre_toNat (p : Preamble) (v : Word) (bs : List Bool)
    (hv : v.toNat < 2 ^ (8 * p.bytes)) :
    (bs.foldl (shiftPre p) v).toNat = bitsValue v.toNat bs % 2 ^ (8 * p.bytes) := by
  induction bs generalizing v with
  | nil => simp [Nat.mod_eq_of_lt hv]
  | cons b bs ih =>
    rw [List.foldl_cons, ih _ (shiftPre_lt p v b), shiftPre_toNat, bitsValue_cons, bitsValue_eq,
      bitsValue_eq (2 * v.toNat + b.toNat)]
    simp [Nat.add_mod, Nat.mul_mod]

/-- All w bits of a w-bit register shifted in, MSB first, leave exactly that value. -/
theorem foldl_shiftIn_bitsMSB {w : Nat} (u v : BitVec w) : (bitsMSB v w).foldl shiftIn u = v := by
  apply BitVec.eq_of_toNat_eq
  rw [foldl_shiftIn_toNat, bitsValue_bitsMSB, Nat.mul_add_mod_self_right, Nat.mod_mod,
    Nat.mod_eq_of_lt v.isLt]

/-- After at least one shift PRE is the number of the bits so far, reduced to its width, whatever it held. -/
theorem foldl_shiftPre_toNat_of_ne_nil (p : Preamble) (v : Word) {bs : List Bool} (h : bs ≠ []) :
    (bs.foldl (shiftPre p) v).toNat = bitsValue v.toNat bs % 2 ^ (8 * p.bytes) := by
  cases bs with
  | nil => exact absurd rfl h
  | cons b bs =>
    rw [List.foldl_cons, foldl_shiftPre_toNat _ _ _ (shiftPre_lt ..), shiftPre_toNat, bitsValue_cons,
      bitsValue_eq, bitsValue_eq (2 * v.toNat + b.toNat)]
    simp [Nat.add_mod, Nat.mul_mod]

/-- A number of a given width has one bit list. -/
theorem bitsValue_injective {xs ys : List Bool} (hl : xs.length = ys.length)
    (h : bitsValue 0 xs = bitsValue 0 ys) : xs = ys := by
  induction xs generalizing ys with
  | nil => cases ys with
    | nil => rfl
    | cons => simp at hl
  | cons x xs ih =>
    cases ys with
    | nil => simp at hl
    | cons y ys =>
      simp only [List.length_cons, Nat.add_right_cancel_iff] at hl
      rw [bitsValue_cons, bitsValue_cons, bitsValue_eq, bitsValue_eq (2 * 0 + y.toNat), hl] at h
      have h1 := bitsValue_lt xs
      have h2 := bitsValue_lt ys
      rw [hl] at h1
      cases x <;> cases y <;> simp at h
      · rw [ih hl h]
      · omega
      · omega
      · rw [ih hl h]

/-- The first j bits of a w-bit field are the field shifted right by w - j. -/
theorem bitsMSB_take {n : Nat} (v : BitVec n) {w j : Nat} (hj : j ≤ w) :
    (bitsMSB v w).take j = bitsMSB (v >>> (w - j)) j := by
  rw [bitsMSB_eq_range, bitsMSB_eq_range, ← List.map_take,
    show (List.range w).take j = List.range j by rw [List.take_range]; congr; omega]
  refine List.map_congr_left fun i hi => ?_
  have := List.mem_range.1 hi
  rw [BitVec.getLsbD_ushiftRight]
  congr 1; omega

end Sys2Proof.Machine
end

