-- ==== Sys2Proof/Laws/Crc.lean ====
section
/-! SUPPORT. The CRC-32 register loses nothing: one round, and one byte, can be undone, so a single changed
byte always changes the checksum. -/

namespace Sys2Proof.Machine

/-- One round can be undone: bit 31 of the result is the bit shifted out. -/
theorem crcBit_injective {a b : Word} (h : crcBit a = crcBit b) : a = b := by
  have hbit : ∀ c : Word, (crcBit c).getLsbD 31 = c.getLsbD 0 := by
    intro c
    rw [crcBit]
    split <;> rename_i h0 <;> simp_all
  have h0 : a.getLsbD 0 = b.getLsbD 0 := by rw [← hbit, ← hbit, h]
  have hs : a >>> 1 = b >>> 1 := by
    rw [crcBit, crcBit, h0] at h
    split at h
    · exact (BitVec.xor_left_inj _).1 h
    · exact h
  apply BitVec.eq_of_getLsbD_eq
  rintro (- | i) hi
  · exact h0
  · have := congrArg (fun v => v.getLsbD i) hs
    simpa [BitVec.getLsbD_ushiftRight, Nat.add_comm] using this

theorem crcBits_injective {n : Nat} {a b : Word} (h : crcBits n a = crcBits n b) : a = b := by
  induction n generalizing a b with
  | zero => exact h
  | succ n ih => exact crcBit_injective (ih h)

theorem crcByte_injective_left {c c' : Word} {d : Byte} (h : crcByte c d = crcByte c' d) : c = c' :=
  (BitVec.xor_left_inj _).1 (crcBits_injective h)

theorem crcByte_injective_right {c : Word} {d d' : Byte} (h : crcByte c d = crcByte c d') : d = d' := by
  have := (BitVec.xor_right_inj _).1 (crcBits_injective h)
  have := congrArg BitVec.toNat this
  simp only [BitVec.toNat_setWidth] at this
  exact BitVec.eq_of_toNat_eq (by omega)

theorem foldl_crcByte_injective {ds : List Byte} {a b : Word}
    (h : ds.foldl crcByte a = ds.foldl crcByte b) : a = b := by
  induction ds generalizing a b with
  | nil => exact h
  | cons d ds ih => exact crcByte_injective_left (ih h)

/-- Two payloads that differ in exactly one byte have different checksums. -/
theorem crc32_of_one_byte {xs ys : List Byte} {d d' : Byte}
    (h : crc32 (xs ++ d :: ys) = crc32 (xs ++ d' :: ys)) : d = d' := by
  have h := (BitVec.xor_left_inj _).1 h
  rw [List.foldl_append, List.foldl_append, List.foldl_cons, List.foldl_cons] at h
  exact crcByte_injective_right (foldl_crcByte_injective h)

end Sys2Proof.Machine
end

