-- ==== Sys2Proof/Laws/Memory.lean ====
section
/-! SUPPORT. PBUF: reading after a write, the canonical form, and that two buffers in canonical form that
read alike are equal. -/

namespace Sys2Proof.Machine

@[simp] theorem Memory.read_nil (i : Nat) : Memory.read [] i = 0 := rfl

theorem Memory.read_of_lt {m : Memory} {i : Nat} (h : ∀ c ∈ m, i < c.1) : Memory.read m i = 0 := by
  induction m with
  | nil => rfl
  | cons c m ih =>
    obtain ⟨k, v⟩ := c
    have hk := h (k, v) (by simp)
    simp only [Memory.read]
    rw [if_neg (by simp at hk; omega)]
    exact ih fun c hc => h c (by simp [hc])

/-- A read after a write: the byte written at its index, the old byte everywhere else. -/
theorem Memory.read_write {m : Memory} (hm : m.Pairwise (fun x y => x.1 < y.1)) (i : Nat) (v : Byte)
    (j : Nat) : (m.write i v).read j = if j = i then v else m.read j := by
  induction m with
  | nil =>
    rw [Memory.write]
    split_ifs with hv hj hj
    · rw [hv, Memory.read]
    · rfl
    · rw [hj]; simp [Memory.read]
    · simp [Memory.read, Ne.symm hj]
  | cons c m ih =>
    obtain ⟨k, u⟩ := c
    obtain ⟨hlt, hm⟩ := List.pairwise_cons.1 hm
    have ih := ih hm
    rw [Memory.write]
    split_ifs with hik hv hj hj hj hik' hv hj hj
    · have hz : Memory.read m i = 0 := Memory.read_of_lt fun c hc => lt_trans hik (hlt c hc)
      rw [hj, Memory.read, if_neg (by omega), hz, hv]
    · rfl
    · rw [Memory.read, if_pos hj.symm]
    · rw [Memory.read, if_neg (Ne.symm hj)]
    · subst hj; subst hik'
      rw [hv, Memory.read_of_lt fun c hc => hlt c hc]
    · rw [Memory.read, if_neg (by omega)]
    · rw [Memory.read, if_pos hj.symm]
    · rw [Memory.read, if_neg (Ne.symm hj), Memory.read, if_neg (by omega)]
    · rw [Memory.read, if_neg (by omega), ih, if_pos hj]
    · rw [Memory.read, Memory.read, ih, if_neg hj]

theorem Memory.mem_write {m : Memory} {i : Nat} {v : Byte} {c : Host.Cell} (h : c ∈ m.write i v) :
    c ∈ m ∨ (c = (i, v) ∧ v ≠ 0) := by
  induction m with
  | nil =>
    rw [Memory.write] at h
    split at h
    · simp at h
    · exact .inr ⟨by simpa using h, ‹_›⟩
  | cons d m ih =>
    obtain ⟨k, u⟩ := d
    simp only [Memory.write] at h
    split at h
    · split at h
      · exact .inl h
      · rcases List.mem_cons.1 h with rfl | h
        · exact .inr ⟨rfl, ‹_›⟩
        · exact .inl h
    · split at h
      · split at h
        · exact .inl (List.mem_cons_of_mem _ h)
        · rcases List.mem_cons.1 h with rfl | h
          · exact .inr ⟨rfl, ‹_›⟩
          · exact .inl (List.mem_cons_of_mem _ h)
      · rcases List.mem_cons.1 h with rfl | h
        · exact .inl (by simp)
        · rcases ih h with h | h
          · exact .inl (List.mem_cons_of_mem _ h)
          · exact .inr h

/-- A write inside the payload address space keeps the canonical form. -/
theorem Memory.write_wf {m : Memory} (hm : m.wf) {i : Nat} (hi : i < 255) (v : Byte) :
    (m.write i v).wf := by
  refine ⟨?_, fun c hc => ?_⟩
  · obtain ⟨hp, -⟩ := hm
    induction m with
    | nil => rw [Memory.write]; split <;> simp
    | cons d m ih =>
      obtain ⟨k, u⟩ := d
      obtain ⟨hlt, hp'⟩ := List.pairwise_cons.1 hp
      simp only [Memory.write]
      split
      · split
        · exact hp
        · refine List.pairwise_cons.2 ⟨fun c hc => ?_, hp⟩
          rcases List.mem_cons.1 hc with rfl | hc
          · assumption
          · exact lt_trans ‹i < k› (hlt c hc)
      · split
        · split
          · exact hp'
          · subst i; exact List.pairwise_cons.2 ⟨hlt, hp'⟩
        · refine List.pairwise_cons.2 ⟨fun c hc => ?_, ih hp'⟩
          rcases Memory.mem_write hc with hc | ⟨rfl, -⟩
          · exact hlt c hc
          · show k < i; omega
  · rcases Memory.mem_write hc with hc | ⟨rfl, hv⟩
    · exact hm.2 c hc
    · exact ⟨hi, hv⟩

theorem Memory.wf_nil : Memory.wf [] := by simp [Memory.wf]

/-- Equal memories are equal data: the canonical form is determined by what it reads as. -/
theorem Memory.wf_ext {m n : Memory} (hm : m.wf) (hn : n.wf) (h : ∀ i, m.read i = n.read i) : m = n := by
  induction m generalizing n with
  | nil =>
    cases n with
    | nil => rfl
    | cons d n =>
      exact absurd (by simpa [Memory.read] using (h d.1).symm) (hn.2 d (by simp)).2
  | cons c m ih =>
    cases n with
    | nil => exact absurd (by simpa [Memory.read] using h c.1) (hm.2 c (by simp)).2
    | cons d n =>
      obtain ⟨k, u⟩ := c
      obtain ⟨l, v⟩ := d
      obtain ⟨hk, hm'⟩ := List.pairwise_cons.1 hm.1
      obtain ⟨hl, hn'⟩ := List.pairwise_cons.1 hn.1
      have hu : u ≠ 0 := (hm.2 (k, u) (by simp)).2
      have hv : v ≠ 0 := (hn.2 (l, v) (by simp)).2
      have hkl : k = l := by
        rcases lt_trichotomy k l with hlt | rfl | hlt
        · have := h k
          rw [Memory.read, if_pos rfl, Memory.read, if_neg (by omega),
            Memory.read_of_lt fun c hc => lt_trans hlt (hl c hc)] at this
          exact absurd this hu
        · rfl
        · have := h l
          rw [Memory.read, if_neg (by omega), Memory.read_of_lt fun c hc => lt_trans hlt (hk c hc),
            Memory.read, if_pos rfl] at this
          exact absurd this.symm hv
      subst hkl
      have huv : u = v := by simpa [Memory.read] using h k
      subst huv
      congr 1
      refine ih ⟨hm', fun c hc => hm.2 c (by simp [hc])⟩ ⟨hn', fun c hc => hn.2 c (by simp [hc])⟩
        fun i => ?_
      by_cases hi : i = k
      · subst hi
        rw [Memory.read_of_lt fun c hc => hk c hc, Memory.read_of_lt fun c hc => hl c hc]
      · have := h i
        rwa [Memory.read, if_neg (Ne.symm hi), Memory.read, if_neg (Ne.symm hi)] at this

@[simp] theorem Memory.bytes_length (m : Memory) (n : Nat) : (m.bytes n).length = n := by
  simp [Memory.bytes]

/-- The payload depends only on the bytes below its length. -/
theorem Memory.bytes_congr {m m' : Memory} {n : Nat} (h : ∀ i < n, m.read i = m'.read i) :
    m.bytes n = m'.bytes n :=
  List.map_congr_left fun i hi => h i (List.mem_range.1 hi)

end Sys2Proof.Machine
end

