-- ==== Sys2Proof/Laws/Frame.lean ====
section
/-! SUPPORT. ConsumeBit: what it can do to a Frame, that it keeps the frame invariants, and that no Frame
that meets them overruns. -/

namespace Sys2Proof.Machine

theorem Frame.empty_inv (p : Preamble) : Frame.Inv p Frame.empty where
  pbuf := Memory.wf_nil
  preWidth := by simp [Frame.empty]
  inPreamble := by simp [Frame.empty]
  pastPreamble := by simp [Frame.empty]
  sized := by simp [Frame.empty]
  inSize := by simp [Frame.empty]
  inData := by simp [Frame.empty]
  inChecksum := by simp [Frame.empty]
  inDone := by simp [Frame.empty]

/-- R21: no Frame that meets the invariants overruns. -/
theorem Frame.overrun_eq_false {p : Preamble} {f : Frame} (h : f.Inv p) : f.overrun = false := by
  rw [Frame.overrun]
  have hs := f.size.isLt
  split <;> simp only [decide_eq_false_iff_not, not_le]
  · have := h.inSize ‹_›; omega
  · have := h.inData ‹_›; omega
  · have := h.inChecksum ‹_›; omega

/-- BITPOS counts up by one while it is not at the end of its width (R21). -/
theorem bitpos_succ {v : BitVec 11} (h : v.toNat < 2047) : (v + 1).toNat = v.toNat + 1 := by
  rw [BitVec.toNat_add]
  exact Nat.mod_eq_of_lt (by simpa using by omega)

/-- The change of STAGE a bit can make (R17). -/
theorem Frame.consumeBit_stage (p : Preamble) (b : Bool) (f : Frame) :
    let g := f.consumeBit p b
    g.stage = f.stage ∨ (f.stage = .preamble ∧ g.stage = .size) ∨
      (f.stage = .size ∧ g.stage = .data) ∨ (f.stage = .data ∧ g.stage = .checksum) ∨
      (f.stage = .checksum ∧ g.stage = .done) ∨ g = Frame.empty := by
  intro g
  have hg : g = f.consumeBit p b := rfl
  rw [Frame.consumeBit] at hg
  split at hg <;> rename_i hst
  · rw [Frame.consumePreamble] at hg
    split at hg <;> simp [hg, hst]
  · rw [Frame.consumeSize] at hg
    split_ifs at hg <;> simp [hg, hst]
  · rw [Frame.consumeData] at hg
    split at hg <;> simp [hg, hst]
  · rw [Frame.consumeChecksum] at hg
    split at hg <;> simp [hg, hst]
  · simp [hg]

/-- ConsumeBit keeps the frame invariants (R23). -/
theorem Frame.consumeBit_inv {p : Preamble} {f : Frame} (b : Bool) (h : f.Inv p) :
    (f.consumeBit p b).Inv p := by
  rw [Frame.consumeBit]
  split <;> rename_i hst
  · rw [Frame.consumePreamble]
    obtain ⟨h1, h2, h3⟩ := h.inPreamble hst
    split
    · exact ⟨h.pbuf, shiftPre_lt .., by simp, fun _ => ‹_›, by simp, by simp, by simp, by simp, by simp⟩
    · exact ⟨h.pbuf, shiftPre_lt .., fun _ => ⟨h1, h2, h3⟩, by simp [hst], by simp [hst], by simp [hst],
        by simp [hst], by simp [hst], by simp [hst]⟩
  · rw [Frame.consumeSize]
    have hp := h.pastPreamble (by simp [hst])
    have hb := h.inSize hst
    split_ifs with h8 hz
    · exact Frame.empty_inv p
    · have hs : 1 ≤ (shiftIn f.size b).toNat := by
        rw [Nat.one_le_iff_ne_zero]
        exact fun e => hz (BitVec.eq_of_toNat_eq (by simpa using e))
      exact ⟨Memory.wf_nil, h.preWidth, by simp, fun _ => hp, fun _ => hs, by simp,
        fun _ => by simpa using by omega, by simp, by simp⟩
    · have hb' : (f.bitpos + 1).toNat < 8 := by rw [bitpos_succ (by omega)]; omega
      exact ⟨h.pbuf, h.preWidth, by simp [hst], fun _ => hp, by simp [hst], fun _ => hb', by simp [hst],
        by simp [hst], by simp [hst]⟩
  · rw [Frame.consumeData]
    have hp := h.pastPreamble (by simp [hst])
    have hs := h.sized (.inl hst)
    have hb := h.inData hst
    have hlt := f.size.isLt
    have hw := Memory.write_wf h.pbuf (i := f.bitpos.toNat / 8) (by omega)
      (shiftIn (f.pbuf.read (f.bitpos.toNat / 8)) b)
    split
    · exact ⟨hw, h.preWidth, by simp, fun _ => hp, fun _ => hs, by simp, by simp, by simp, by simp⟩
    · have hb' : (f.bitpos + 1).toNat < 8 * f.size.toNat := by rw [bitpos_succ (by omega)]; omega
      exact ⟨hw, h.preWidth, by simp [hst], fun _ => hp, fun _ => hs, by simp [hst], fun _ => hb',
        by simp [hst], by simp [hst]⟩
  · rw [Frame.consumeChecksum]
    have hp := h.pastPreamble (by simp [hst])
    have hs := h.sized (.inr (.inl hst))
    have hb := h.inChecksum hst
    split
    · exact ⟨h.pbuf, h.preWidth, by simp, fun _ => hp, fun _ => hs, by simp, by simp, by simp, by simp⟩
    · have hb' : (f.bitpos + 1).toNat < 32 := by rw [bitpos_succ (by omega)]; omega
      exact ⟨h.pbuf, h.preWidth, by simp [hst], fun _ => hp, fun _ => hs, by simp [hst], by simp [hst],
        fun _ => hb', by simp [hst]⟩
  · exact h

end Sys2Proof.Machine
end

