-- ==== Sys2Proof/Laws/State.lean ====
section
/-! SUPPORT. One lemma per field and update of State, true by rfl, so that no proof unfolds a record
update. -/

namespace Sys2Proof.Machine

variable (s : State) (o : Output) (os : List Output) (r : DWord) (e : Status) (b : Bool)

@[simp] theorem State.emit_preamble : (s.emit o).preamble = s.preamble := rfl
@[simp] theorem State.emit_fc : (s.emit o).fc = s.fc := rfl
@[simp] theorem State.emit_mlc : (s.emit o).mlc = s.mlc := rfl
@[simp] theorem State.emit_blocked : (s.emit o).blocked = s.blocked := rfl
@[simp] theorem State.emit_inputs : (s.emit o).inputs = s.inputs := rfl
@[simp] theorem State.emit_outputs : (s.emit o).outputs = s.outputs ++ [o] := rfl

@[simp] theorem State.emitAll_preamble : (s.emitAll os).preamble = s.preamble := rfl
@[simp] theorem State.emitAll_fc : (s.emitAll os).fc = s.fc := rfl
@[simp] theorem State.emitAll_mlc : (s.emitAll os).mlc = s.mlc := rfl
@[simp] theorem State.emitAll_blocked : (s.emitAll os).blocked = s.blocked := rfl
@[simp] theorem State.emitAll_inputs : (s.emitAll os).inputs = s.inputs := rfl
@[simp] theorem State.emitAll_outputs : (s.emitAll os).outputs = s.outputs ++ os := rfl

@[simp] theorem State.respond_preamble : (s.respond r).preamble = s.preamble := rfl
@[simp] theorem State.respond_fc : (s.respond r).fc = s.fc := rfl
@[simp] theorem State.respond_mlc : (s.respond r).mlc = s.mlc := rfl
@[simp] theorem State.respond_blocked : (s.respond r).blocked = s.blocked := rfl
@[simp] theorem State.respond_inputs : (s.respond r).inputs = s.inputs := rfl
@[simp] theorem State.respond_outputs :
    (s.respond r).outputs = s.outputs ++ [.response ⟨.ok, r⟩] := rfl

@[simp] theorem State.raise_preamble : (s.raise e).preamble = s.preamble := rfl
@[simp] theorem State.raise_fc : (s.raise e).fc = s.fc := rfl
@[simp] theorem State.raise_mlc : (s.raise e).mlc = s.mlc := rfl
@[simp] theorem State.raise_blocked : (s.raise e).blocked = s.blocked := rfl
@[simp] theorem State.raise_inputs : (s.raise e).inputs = s.inputs := rfl
@[simp] theorem State.raise_outputs : (s.raise e).outputs = s.outputs ++ [.response ⟨e, 0⟩] := rfl

@[simp] theorem State.frameReset_preamble : s.frameReset.preamble = s.preamble := rfl
@[simp] theorem State.frameReset_fc : s.frameReset.fc = Frame.empty := rfl
@[simp] theorem State.frameReset_mlc : s.frameReset.mlc = s.mlc := rfl
@[simp] theorem State.frameReset_blocked : s.frameReset.blocked = s.blocked := rfl
@[simp] theorem State.frameReset_inputs : s.frameReset.inputs = s.inputs := rfl
@[simp] theorem State.frameReset_outputs : s.frameReset.outputs = s.outputs := rfl

@[simp] theorem State.hardwareReset_preamble : s.hardwareReset.preamble = s.preamble := rfl
@[simp] theorem State.hardwareReset_fc : s.hardwareReset.fc = Frame.empty := rfl
@[simp] theorem State.hardwareReset_mlc : s.hardwareReset.mlc = Mlc.empty := rfl
@[simp] theorem State.hardwareReset_blocked : s.hardwareReset.blocked = none := rfl
@[simp] theorem State.hardwareReset_inputs : s.hardwareReset.inputs = s.inputs := rfl
@[simp] theorem State.hardwareReset_outputs : s.hardwareReset.outputs = s.outputs := rfl

@[simp] theorem State.setPrev_preamble : (s.setPrev b).preamble = s.preamble := rfl
@[simp] theorem State.setPrev_fc : (s.setPrev b).fc = s.fc := rfl
@[simp] theorem State.setPrev_mlc : (s.setPrev b).mlc = { s.mlc with prev := b } := rfl
@[simp] theorem State.setPrev_blocked : (s.setPrev b).blocked = s.blocked := rfl
@[simp] theorem State.setPrev_inputs : (s.setPrev b).inputs = s.inputs := rfl
@[simp] theorem State.setPrev_outputs : (s.setPrev b).outputs = s.outputs := rfl

end Sys2Proof.Machine
end

