-- ==== Sys2Proof/Laws/Line.lean ====
section
/-! SUPPORT. Running a blocking command's event list: everything it can do, and what it does when the timer
completes every request. -/

namespace Sys2Proof.Machine

/-- Taking a signal leaves the commands at the port, in order (R97). -/
theorem takeSignal_isCommand {is rest : List Input} {g : Signal} (h : takeSignal is = some (g, rest)) :
    rest.filter Input.isCommand = is.filter Input.isCommand := by
  induction is generalizing rest with
  | nil => simp [takeSignal] at h
  | cons i is ih =>
    cases i with
    | sleepDone => simp only [takeSignal, Option.some.injEq, Prod.mk.injEq] at h; simp [h.2, Input.isCommand]
    | reset => simp only [takeSignal, Option.some.injEq, Prod.mk.injEq] at h; simp [h.2, Input.isCommand]
    | command c =>
      rw [takeSignal, Option.map_eq_some_iff] at h
      obtain ⟨⟨g', is'⟩, h, he⟩ := h
      obtain ⟨rfl, rfl⟩ := Prod.mk.inj he
      rw [List.filter_cons_of_pos rfl, List.filter_cons_of_pos rfl, ih h]

/-- Everything runLine can do: it writes PREV, takes signals from the inputs, produces SIG and SLEEP events,
and then either responds OK or is blocked with the rest of its list. -/
theorem runLine_cases (ops : List LineOp) (s : State) :
    ∃ (prev : Bool) (inputs : List Input) (events : List Output),
      inputs.filter Input.isCommand = s.inputs.filter Input.isCommand ∧
      (∀ o ∈ events, o = .sleep ∨ ∃ l, o = .sig l) ∧
      (runLine ops s = { s with
          mlc := { s.mlc with prev := prev }, blocked := none, inputs := inputs
          outputs := s.outputs ++ events ++ [.response ⟨.ok, 0⟩] } ∨
        ∃ rest, rest <:+ ops ∧ events ≠ [] ∧ events.getLast? = some .sleep ∧ runLine ops s = { s with
          mlc := { s.mlc with prev := prev }, blocked := some rest, inputs := inputs
          outputs := s.outputs ++ events }) := by
  induction ops generalizing s with
  | nil => exact ⟨s.mlc.prev, s.inputs, [], rfl, by simp, .inl (by simp [runLine, State.respond, State.emit])⟩
  | cons op ops ih =>
    cases op with
    | setPrev b =>
      obtain ⟨p, is, ev, hi, he, h⟩ := ih (s.setPrev b)
      refine ⟨p, is, ev, hi, he, ?_⟩
      simp only [runLine]
      rcases h with h | ⟨rest, hr, hne, hl, h⟩
      · exact .inl (h.trans (by simp [State.setPrev]))
      · exact .inr ⟨rest, hr.trans (List.suffix_cons _ _), hne, hl, h.trans (by simp [State.setPrev])⟩
    | sig l =>
      obtain ⟨p, is, ev, hi, he, h⟩ := ih (s.emit (.sig l))
      refine ⟨p, is, .sig l :: ev, hi, by simpa using he, ?_⟩
      simp only [runLine]
      rcases h with h | ⟨rest, hr, hne, hl, h⟩
      · exact .inl (h.trans (by simp [State.emit]))
      · exact .inr ⟨rest, hr.trans (List.suffix_cons _ _), by simp,
          by rw [List.getLast?_cons, hl]; rfl, h.trans (by simp [State.emit])⟩
    | sleep =>
      simp only [runLine]
      split
      · next rest hs =>
        obtain ⟨p, is, ev, hi, he, h⟩ := ih { s.emit .sleep with inputs := rest }
        refine ⟨p, is, .sleep :: ev, hi.trans (takeSignal_isCommand hs),
          by simpa using he, ?_⟩
        rcases h with h | ⟨rest, hr, hne, hl, h⟩
        · exact .inl (h.trans (by simp [State.emit]))
        · exact .inr ⟨rest, hr.trans (List.suffix_cons _ _), by simp,
            by rw [List.getLast?_cons, hl]; rfl, h.trans (by simp [State.emit])⟩
      · exact ⟨s.mlc.prev, s.inputs, [.sleep], rfl, by simp,
          .inr ⟨ops, List.suffix_cons _ _, by simp, by simp, by simp [State.emit]⟩⟩

/-- The events of an event list, PREV writes left out. -/
def opsOutputs : List LineOp → List Output
  | [] => []
  | .setPrev _ :: ops => opsOutputs ops
  | .sig l :: ops => .sig l :: opsOutputs ops
  | .sleep :: ops => .sleep :: opsOutputs ops

/-- PREV after an event list. -/
def opsPrev : Bool → List LineOp → Bool
  | p, [] => p
  | _, .setPrev b :: ops => opsPrev b ops
  | p, .sig _ :: ops => opsPrev p ops
  | p, .sleep :: ops => opsPrev p ops

/-- The number of SLEEP requests of an event list. -/
def opsSleeps : List LineOp → Nat
  | [] => 0
  | .setPrev _ :: ops => opsSleeps ops
  | .sig _ :: ops => opsSleeps ops
  | .sleep :: ops => opsSleeps ops + 1

/-- When the timer completes every request, the command runs to its end (R12, R86). -/
theorem runLine_complete (ops : List LineOp) (s : State) (rest : List Input)
    (h : Env.completions (opsSleeps ops) s.inputs = some rest) :
    runLine ops s = { s with
      mlc := { s.mlc with prev := opsPrev s.mlc.prev ops }, blocked := none, inputs := rest
      outputs := s.outputs ++ opsOutputs ops ++ [.response ⟨.ok, 0⟩] } := by
  induction ops generalizing s with
  | nil =>
    simp only [opsSleeps, Env.completions, Option.some.injEq] at h
    simp [runLine, State.respond, State.emit, opsPrev, opsOutputs, ← h]
  | cons op ops ih =>
    cases op with
    | setPrev b =>
      rw [runLine, ih (s.setPrev b) h]; simp [State.setPrev, opsPrev, opsOutputs]
    | sig l =>
      rw [runLine, ih (s.emit (.sig l)) h]; simp [State.emit, opsPrev, opsOutputs]
    | sleep =>
      simp only [opsSleeps, Env.completions] at h
      split at h
      · next rest' hs =>
        rw [runLine, hs]
        simp only
        rw [ih _ h]
        simp [State.emit, opsPrev, opsOutputs]
      · exact absurd h (by simp)

/-- PREV at SLEEP request number k of an event list, counted from 0. -/
def opsPrevAt : Nat → Bool → List LineOp → Bool
  | _, p, [] => p
  | k, _, .setPrev b :: ops => opsPrevAt k b ops
  | k, p, .sig _ :: ops => opsPrevAt k p ops
  | 0, p, .sleep :: _ => p
  | k + 1, p, .sleep :: ops => opsPrevAt k p ops

/-- Whether a command was blocked does not matter to how its event list runs on (R32). -/
theorem runLine_blocked (ops : List LineOp) (s : State) (x : Option (List LineOp)) :
    runLine ops { s with blocked := x } = runLine ops s := by
  induction ops generalizing s x with
  | nil => rfl
  | cons op ops ih =>
    cases op with
    | setPrev b => exact ih (s.setPrev b) x
    | sig l => exact ih (s.emit (.sig l)) x
    | sleep =>
      simp only [runLine]
      split
      · next rest _ => exact ih { s.emit .sleep with inputs := rest } x
      · rfl

/-- When the timer completes only the first k requests, the command is blocked on the next one, with the
rest of its list; had the inputs `is` with a completion been there instead of `rest`, it would have gone on
with exactly that list (R32). -/
theorem runLine_partial (ops : List LineOp) (s : State) (k : Nat) (rest : List Input)
    (hk : k < opsSleeps ops) (h : Env.completions k s.inputs = some rest) (hn : NoCompletion rest) :
    ∃ (remaining : List LineOp) (produced : List Output),
      runLine ops s = { s with
        mlc := { s.mlc with prev := opsPrevAt k s.mlc.prev ops }, blocked := some remaining
        inputs := rest, outputs := s.outputs ++ produced ++ [.sleep] } ∧
      opsOutputs ops = produced ++ .sleep :: opsOutputs remaining ∧
      produced.countP Output.isSleep = k ∧ opsSleeps remaining + k + 1 = opsSleeps ops ∧
      ∀ is r, takeSignal is = some (.sleepDone, r) →
        runLine ops { s with inputs := List.replicate k .sleepDone ++ is } =
          runLine remaining { s with
            mlc := { s.mlc with prev := opsPrevAt k s.mlc.prev ops }, inputs := r
            outputs := s.outputs ++ produced ++ [.sleep] } := by
  induction ops generalizing s k with
  | nil => simp [opsSleeps] at hk
  | cons op ops ih =>
    cases op with
    | setPrev b =>
      obtain ⟨rem, ev, hr, ho, hc, hs, hf⟩ := ih (s.setPrev b) k hk h
      exact ⟨rem, ev, by rw [runLine, hr]; simp [State.setPrev, opsPrevAt], ho, hc, hs,
        fun is r hi => (hf is r hi).trans (by simp [State.setPrev, opsPrevAt])⟩
    | sig l =>
      obtain ⟨rem, ev, hr, ho, hc, hs, hf⟩ := ih (s.emit (.sig l)) k hk h
      exact ⟨rem, .sig l :: ev, by rw [runLine, hr]; simp [State.emit, opsPrevAt], by simp [opsOutputs, ho],
        by simpa [List.countP_cons, Output.isSleep] using hc, hs,
        fun is r hi => (hf is r hi).trans (by simp [State.emit, opsPrevAt])⟩
    | sleep =>
      cases k with
      | zero =>
        simp only [Env.completions, Option.some.injEq] at h
        subst h
        refine ⟨ops, [], ?_, rfl, rfl, by simp [opsSleeps], fun is r hi => ?_⟩
        · rw [runLine]
          split
          · next r hs => exact absurd hs (hn r)
          · simp [State.emit, opsPrevAt]
        · simp only [runLine, List.replicate_zero, List.nil_append, hi]
          simp [State.emit, opsPrevAt]
      | succ k =>
        simp only [Env.completions] at h
        split at h
        · next rest' hs =>
          obtain ⟨rem, ev, hr, ho, hc, hs', hf⟩ := ih { s.emit .sleep with inputs := rest' } k
            (by simpa [opsSleeps] using hk) h
          refine ⟨rem, .sleep :: ev, ?_, by simp [opsOutputs, ho],
            by simp [List.countP_cons, Output.isSleep, hc], by simp only [opsSleeps]; omega,
            fun is r hi => ?_⟩
          · rw [runLine, hs]
            simp only
            rw [hr]; simp [State.emit, opsPrevAt]
          · simp only [runLine, List.replicate_succ, List.cons_append, takeSignal]
            exact (hf is r hi).trans (by simp [State.emit, opsPrevAt])
        · exact absurd h (by simp)

/-- Completions one after the other: the first j, then the others (R86). -/
theorem completions_add (j k : Nat) (is : List Input) :
    Env.completions (j + k) is = (Env.completions j is).bind (Env.completions k) := by
  induction j generalizing is with
  | zero => simp [Env.completions]
  | succ j ih =>
    rw [Nat.succ_add, Env.completions, Env.completions]
    split
    · exact ih _
    · rfl

/-- Completions that are all there already (R86). -/
theorem completions_replicate (k : Nat) (is : List Input) :
    Env.completions k (List.replicate k .sleepDone ++ is) = some is := by
  induction k with
  | zero => rfl
  | succ k ih => simpa [Env.completions, List.replicate_succ, takeSignal] using ih

theorem opsSleeps_append (xs ys : List LineOp) : opsSleeps (xs ++ ys) = opsSleeps xs + opsSleeps ys := by
  induction xs with
  | nil => simp [opsSleeps]
  | cons x xs ih => (cases x <;> simp [opsSleeps, ih]); omega

theorem opsOutputs_append (xs ys : List LineOp) :
    opsOutputs (xs ++ ys) = opsOutputs xs ++ opsOutputs ys := by
  induction xs with
  | nil => rfl
  | cons x xs ih => cases x <;> simp [opsOutputs, ih]

theorem opsPrev_append (p : Bool) (xs ys : List LineOp) :
    opsPrev p (xs ++ ys) = opsPrev (opsPrev p xs) ys := by
  induction xs generalizing p with
  | nil => rfl
  | cons x xs ih => cases x <;> simp [opsPrev, ih]

/-- EncodeBit requests two SLEEPs (R69). -/
theorem opsSleeps_encodeStream (prev : Bool) (bits : List Bool) :
    opsSleeps (encodeStreamOps prev bits) = 2 * bits.length := by
  induction bits generalizing prev with
  | nil => rfl
  | cons b bits ih =>
    rw [encodeStreamOps, opsSleeps_append, ih, encodeBitOps, List.length_cons]
    split <;> simp only [opsSleeps, List.nil_append, List.cons_append] <;> omega

/-- The encoder's event list gives the outputs of R69. -/
theorem opsOutputs_encodeStream (prev : Bool) (bits : List Bool) :
    opsOutputs (encodeStreamOps prev bits) = lineOutputs prev bits := by
  induction bits generalizing prev with
  | nil => rfl
  | cons b bits ih =>
    rw [encodeStreamOps, opsOutputs_append, ih, encodeBitOps, lineOutputs]
    split <;> simp [opsOutputs]

/-- PREV after a bit sequence is its last bit (R69). -/
theorem opsPrev_encodeStream (prev : Bool) (bits : List Bool) :
    opsPrev prev (encodeStreamOps prev bits) = bits.getLastD prev := by
  induction bits generalizing prev with
  | nil => rfl
  | cons b bits ih =>
    have h : opsPrev prev (encodeBitOps prev b) = b := by
      rw [encodeBitOps]; split <;> rfl
    rw [encodeStreamOps, opsPrev_append, h, ih, List.getLastD_cons]

/-- PREV at a SLEEP request is the bit whose period it is in (R69). -/
theorem opsPrevAt_encodeStream (prev : Bool) (bits : List Bool) (k : Nat) (hk : k < 2 * bits.length) :
    bits[k / 2]? = some (opsPrevAt k prev (encodeStreamOps prev bits)) := by
  induction bits generalizing prev k with
  | nil => simp at hk
  | cons b bits ih =>
    have h : ∀ q ops, opsPrevAt (q + 2) prev (encodeBitOps prev b ++ ops) = opsPrevAt q b ops := by
      intro q ops; rw [encodeBitOps]; split <;> rfl
    match k with
    | 0 => rw [encodeStreamOps, encodeBitOps]; split <;> rfl
    | 1 => rw [encodeStreamOps, encodeBitOps]; split <;> rfl
    | q + 2 =>
      rw [encodeStreamOps, h, show (q + 2) / 2 = q / 2 + 1 by omega, List.getElem?_cons_succ]
      exact ih b q (by simp only [List.length_cons] at hk; omega)

theorem encodeBitOps_eq (prev b : Bool) : encodeBitOps prev b = encodeStreamOps prev [b] := by
  simp [encodeStreamOps]

end Sys2Proof.Machine
end

