-- ==== Sys2Proof/Laws/Manchester.lean ====
section
/-! SUPPORT. The interval classifier as inequalities (R72), and the numbers of the flag and result words. -/

namespace Sys2Proof.Machine

/-- R72: the band of a multiplier. -/
theorem Mlc.multiplier_eq_iff {m : Mlc} (hH : m.halfPeriod ≠ 0) (e k : Int) : m.multiplier e = k ↔
    (m.sensitivity.toNat : Int) + (k - 1) * m.halfPeriod.toNat ≤ e ∧
      e < (m.sensitivity.toNat : Int) + k * m.halfPeriod.toNat := by
  have hpos : (0 : Int) < m.halfPeriod.toNat := by
    have : m.halfPeriod.toNat ≠ 0 := fun h => hH (BitVec.eq_of_toNat_eq (by simpa using h))
    omega
  rw [Mlc.multiplier, Int.fdiv_eq_ediv_of_nonneg _ hpos.le]
  have key : (e - m.sensitivity.toNat) / (m.halfPeriod.toNat : Int) = k - 1 ↔
      (k - 1) * m.halfPeriod.toNat ≤ e - m.sensitivity.toNat ∧
        e - m.sensitivity.toNat < (k - 1 + 1) * m.halfPeriod.toNat := by
    constructor
    · intro h
      exact ⟨(Int.le_ediv_iff_mul_le hpos).1 h.ge, (Int.ediv_lt_iff_lt_mul hpos).1 (by omega)⟩
    · rintro ⟨h1, h2⟩
      have := (Int.le_ediv_iff_mul_le hpos).2 h1
      have := (Int.ediv_lt_iff_lt_mul hpos).2 h2
      omega
  have hk : k - 1 + 1 = k := by omega
  rw [hk] at key
  constructor
  · intro h
    have := key.1 (by omega)
    omega
  · intro h
    have := key.2 (by omega)
    omega

/-- A class by the inequalities of R72. -/
theorem Mlc.class_desync_iff {m : Mlc} (hH : m.halfPeriod ≠ 0) (e : Int) :
    EdgeClass.ofMultiplier (m.multiplier e) = .desync ↔
      e < m.sensitivity.toNat ∨ (m.sensitivity.toNat : Int) + 3 * m.halfPeriod.toNat ≤ e := by
  have h1 := Mlc.multiplier_eq_iff hH e 1
  have h2 := Mlc.multiplier_eq_iff hH e 2
  have h3 := Mlc.multiplier_eq_iff hH e 3
  have : EdgeClass.ofMultiplier (m.multiplier e) = .desync ↔
      m.multiplier e ≠ 1 ∧ m.multiplier e ≠ 2 ∧ m.multiplier e ≠ 3 := by
    rw [EdgeClass.ofMultiplier]; split_ifs <;> simp <;> omega
  rw [this, Ne, Ne, Ne, h1, h2, h3]
  omega

theorem Mlc.class_skip_iff {m : Mlc} (hH : m.halfPeriod ≠ 0) (e : Int) :
    EdgeClass.ofMultiplier (m.multiplier e) = .skip ↔
      (m.sensitivity.toNat : Int) + m.halfPeriod.toNat ≤ e ∧
        e < (m.sensitivity.toNat : Int) + 2 * m.halfPeriod.toNat := by
  have h2 := Mlc.multiplier_eq_iff hH e 2
  have : EdgeClass.ofMultiplier (m.multiplier e) = .skip ↔ m.multiplier e = 2 := by
    rw [EdgeClass.ofMultiplier]; split_ifs <;> simp <;> omega
  rw [this, h2]
  omega

theorem Mlc.class_data_iff {m : Mlc} (hH : m.halfPeriod ≠ 0) (e : Int) :
    EdgeClass.ofMultiplier (m.multiplier e) = .data ↔
      ((m.sensitivity.toNat : Int) ≤ e ∧ e < (m.sensitivity.toNat : Int) + m.halfPeriod.toNat) ∨
      ((m.sensitivity.toNat : Int) + 2 * m.halfPeriod.toNat ≤ e ∧
        e < (m.sensitivity.toNat : Int) + 3 * m.halfPeriod.toNat) := by
  have h1 := Mlc.multiplier_eq_iff hH e 1
  have h3 := Mlc.multiplier_eq_iff hH e 3
  have : EdgeClass.ofMultiplier (m.multiplier e) = .data ↔ m.multiplier e = 1 ∨ m.multiplier e = 3 := by
    rw [EdgeClass.ofMultiplier]; split_ifs <;> simp <;> omega
  rw [this, h1, h3]
  omega

/-- R73 corner case 3: an edge before LAST_TS is DESYNC, since S ≥ 0. -/
theorem Mlc.classify_of_outOfOrder {m : Mlc} {ts : DWord} (hH : m.halfPeriod ≠ 0)
    (h : m.outOfOrder ts = true) : m.classify ts = .desync := by
  simp only [Mlc.outOfOrder, Bool.and_eq_true, decide_eq_true_eq] at h
  rw [Mlc.classify, h.1, if_pos rfl, Mlc.class_desync_iff hH, Mlc.elapsed]
  omega

/-- A flag's result word as a number (R54). -/
theorem boolResult_eq (b : Bool) : boolResult b = if b = true then 1 else 0 := by cases b <;> decide

/-- MC_DECODE_EDGE's RESULT as a number (R54). -/
theorem edgeResult_eq (done : Bool) (cls : EdgeClass) (bit : Bool) : edgeResult done cls bit =
    BitVec.ofNat 64 (cls.carriesBit.toNat + 2 * (bit && cls.carriesBit).toNat
      + 4 * cls.code.toNat + 16 * done.toNat) := by
  cases done <;> cases cls <;> cases bit <;> decide

/-- STATUS as a number (R31). -/
theorem status_toNat (m : Mlc) :
    m.status.toNat = 4 * m.ordErr.toNat + 2 * m.syncV.toNat + m.cfgOk.toNat := by
  rw [Mlc.status]
  rcases m.ordErr with - | - <;> rcases m.syncV with - | - <;> rcases m.cfgOk with - | - <;> decide

end Sys2Proof.Machine
end

