-- ==== Sys2Proof/Laws/Exec.lean ====
section
/-! SUPPORT. One inversion lemma per command: everything exec can do when it answers a next state. Proofs over
all commands cite these instead of unfolding the meanings. -/

namespace Sys2Proof.Machine

variable {s t : State}

theorem exec_fcConsumeBit_next {b : Bool} (h : exec (.fcConsumeBit b) s = .next t) :
    s.fc.overrun = false ∧ t = { s with fc := s.fc.consumeBit s.preamble b }.respond
      (boolResult (s.fc.consumeBit s.preamble b).isDone) := by
  rw [exec, execFcConsumeBit] at h
  split at h
  · cases h
  · next hv => cases h; exact ⟨by simpa using hv, rfl⟩

theorem exec_fcReset_next (h : exec .fcReset s = .next t) : t = s.frameReset.respond 0 := by
  cases h; rfl

theorem exec_fcIsValid_next (h : exec .fcIsValid s = .next t) :
    t = s.respond (boolResult s.fc.isValid) := by
  cases h; rfl

theorem exec_fcBuild_next {len : Byte} (h : exec (.fcBuild len) s = .next t) :
    (len = 0 ∧ t = s.raise .badArg) ∨
    (len ≠ 0 ∧ t = { s with fc := ⟨.done, s.preamble.const, len,
      crc32 (s.fc.pbuf.bytes len.toNat), 0, s.fc.pbuf⟩ }.respond 0) := by
  rw [exec, execFcBuild] at h
  split at h <;> cases h
  · exact .inl ⟨‹_›, rfl⟩
  · exact .inr ⟨‹_›, rfl⟩

theorem exec_fcSerialize_next {sink : Sink} (h : exec (.fcSerialize sink) s = .next t) :
    (sink = .line ∧ s.mlc.cfgOk = false ∧ t = s.raise .notConfigured) ∨
    (s.fc.isDone = false ∧ t = s.raise .badState) ∨
    (s.fc.isDone = true ∧ sink = .bits ∧
      t = (s.emitAll ((s.fc.wireStream s.preamble).map .bit)).respond 0) ∨
    (s.fc.isDone = true ∧ sink = .line ∧ s.mlc.cfgOk = true ∧
      t = runLine (encodeStreamOps s.mlc.prev (s.fc.wireStream s.preamble)) s) := by
  rw [exec, execFcSerialize] at h
  split at h
  · next hc => cases h; exact .inl ⟨hc.1, hc.2, rfl⟩
  · next hc =>
    split at h
    · cases h; exact .inr (.inl ⟨‹_›, rfl⟩)
    · next hd =>
      have hd : s.fc.isDone = true := by simpa using hd
      cases sink
      · cases h; exact .inr (.inr (.inl ⟨hd, rfl, rfl⟩))
      · cases h; exact .inr (.inr (.inr ⟨hd, rfl, by simpa using hc, rfl⟩))

theorem exec_mcConfig_next {x y : DWord} (h : exec (.mcConfig x y) s = .next t) :
    ((fits32 x = false ∨ fits32 y = false) ∧ t = s.raise .badArg) ∨
    (fits32 x = true ∧ fits32 y = true ∧ low32 x = 0 ∧ t = s.raise .configInvalid) ∨
    (fits32 x = true ∧ fits32 y = true ∧ low32 x ≠ 0 ∧
      t = { s with mlc := ⟨low32 x, low32 y, false, false, 0, true, s.mlc.ordErr⟩ }.respond 0) := by
  rw [exec, execMcConfig] at h
  split at h
  · cases h; exact .inl ⟨‹_›, rfl⟩
  · next hf =>
    simp only [not_or, Bool.not_eq_false] at hf
    split at h <;> cases h
    · exact .inr (.inl ⟨hf.1, hf.2, ‹_›, rfl⟩)
    · exact .inr (.inr ⟨hf.1, hf.2, ‹_›, rfl⟩)

theorem exec_mcEncodeBit_next {b : Bool} (h : exec (.mcEncodeBit b) s = .next t) :
    (s.mlc.cfgOk = false ∧ t = s.raise .notConfigured) ∨
    (s.mlc.cfgOk = true ∧ t = runLine (encodeBitOps s.mlc.prev b) s) := by
  rw [exec, execMcEncodeBit] at h
  split at h
  · cases h; exact .inl ⟨‹_›, rfl⟩
  · next hc => cases h; exact .inr ⟨by simpa using hc, rfl⟩

theorem exec_mcDecodeEdge_next {dir : Direction} {route : Route} {ts : DWord}
    (h : exec (.mcDecodeEdge dir route ts) s = .next t) :
    (s.mlc.cfgOk = false ∧ t = s.raise .notConfigured) ∨
    (s.mlc.cfgOk = true ∧ (s.mlc.syncV = true → s.mlc.halfPeriod ≠ 0) ∧
      ((route = .channel ∧ (s.mlc.classify ts).carriesBit = true ∧
          t = ({ s with mlc := s.mlc.afterEdge ts }.emit (.bit dir.bit)).respond
            (edgeResult s.fc.isDone (s.mlc.classify ts) dir.bit)) ∨
        (route = .frame ∧ (s.mlc.classify ts).carriesBit = true ∧ s.fc.overrun = false ∧
          t = { s with mlc := s.mlc.afterEdge ts, fc := s.fc.consumeBit s.preamble dir.bit }.respond
            (edgeResult (s.fc.consumeBit s.preamble dir.bit).isDone (s.mlc.classify ts) dir.bit)) ∨
        ((s.mlc.classify ts).carriesBit = false ∧
          t = { s with mlc := s.mlc.afterEdge ts }.respond
            (edgeResult s.fc.isDone (s.mlc.classify ts) dir.bit)))) := by
  rw [exec, execMcDecodeEdge] at h
  split at h
  · cases h; exact .inl ⟨‹_›, rfl⟩
  · next hc =>
    have hc : s.mlc.cfgOk = true := by simpa using hc
    split at h
    · cases h
    · next hz =>
      refine .inr ⟨hc, fun hs he => hz ⟨hs, he⟩, ?_⟩
      dsimp only at h
      by_cases hb : (s.mlc.classify ts).carriesBit = true
      · rw [if_pos hb] at h
        cases route
        · cases h; exact .inl ⟨rfl, hb, rfl⟩
        · dsimp only at h
          split at h
          · cases h
          · next hv => cases h; exact .inr (.inl ⟨rfl, hb, by simpa using hv, rfl⟩)
      · rw [if_neg hb] at h
        cases h; exact .inr (.inr ⟨by simpa using hb, rfl⟩)

theorem exec_pbWrite_next {idx byte : Byte} (h : exec (.pbWrite idx byte) s = .next t) :
    (idx = 255 ∧ t = s.raise .badArg) ∨
    (idx ≠ 255 ∧
      t = { s with fc := { s.fc with pbuf := s.fc.pbuf.write idx.toNat byte } }.respond 0) := by
  rw [exec, execPbWrite, pbufIndex?] at h
  by_cases hi : idx = 255
  · rw [if_pos hi] at h; cases h; exact .inl ⟨hi, rfl⟩
  · rw [if_neg hi] at h; cases h; exact .inr ⟨hi, rfl⟩

theorem exec_pbRead_next {idx : Byte} (h : exec (.pbRead idx) s = .next t) :
    (idx = 255 ∧ t = s.raise .badArg) ∨
    (idx ≠ 255 ∧ t = s.respond ((s.fc.pbuf.read idx.toNat).setWidth 64)) := by
  rw [exec, execPbRead, pbufIndex?] at h
  by_cases hi : idx = 255
  · rw [if_pos hi] at h; cases h; exact .inl ⟨hi, rfl⟩
  · rw [if_neg hi] at h; cases h; exact .inr ⟨hi, rfl⟩

theorem exec_regRead_next {sel : Byte} (h : exec (.regRead sel) s = .next t) :
    (Reg.ofSelector? sel = none ∧ t = s.raise .badArg) ∨
    (∃ r, Reg.ofSelector? sel = some r ∧ t = s.respond (r.value s)) := by
  rw [exec, execRegRead] at h
  split at h <;> cases h
  · exact .inl ⟨‹_›, rfl⟩
  · exact .inr ⟨_, ‹_›, rfl⟩

/-- An index other than 255 is inside PBUF (R34). -/
theorem byte_lt_255 {idx : Byte} (h : idx ≠ 255) : idx.toNat < 255 := by
  have := idx.isLt
  have : idx.toNat ≠ 255 := fun e => h (BitVec.eq_of_toNat_eq (by simpa using e))
  omega

/-- What an edge does to the Manchester registers besides SYNC_V, LAST_TS and ORD_ERR: nothing (R73). -/
@[simp] theorem Mlc.afterEdge_halfPeriod (m : Mlc) (ts : DWord) :
    (m.afterEdge ts).halfPeriod = m.halfPeriod := by rw [Mlc.afterEdge]; split <;> rfl
@[simp] theorem Mlc.afterEdge_sensitivity (m : Mlc) (ts : DWord) :
    (m.afterEdge ts).sensitivity = m.sensitivity := by rw [Mlc.afterEdge]; split <;> rfl
@[simp] theorem Mlc.afterEdge_prev (m : Mlc) (ts : DWord) :
    (m.afterEdge ts).prev = m.prev := by rw [Mlc.afterEdge]; split <;> rfl
@[simp] theorem Mlc.afterEdge_cfgOk (m : Mlc) (ts : DWord) :
    (m.afterEdge ts).cfgOk = m.cfgOk := by rw [Mlc.afterEdge]; split <;> rfl
@[simp] theorem Mlc.afterEdge_ordErr (m : Mlc) (ts : DWord) :
    (m.afterEdge ts).ordErr = (m.ordErr || m.outOfOrder ts) := by rw [Mlc.afterEdge]; split <;> rfl

/-- An edge keeps the Manchester invariants of a configured codec (R24, R73). -/
theorem Mlc.afterEdge_inv {m : Mlc} (ts : DWord) (h : m.Inv) (hc : m.cfgOk = true) :
    (m.afterEdge ts).Inv where
  configured _ := by rw [Mlc.afterEdge_halfPeriod]; exact h.configured hc
  synchronized _ := by rwa [Mlc.afterEdge_cfgOk]
  disordered _ := by rwa [Mlc.afterEdge_cfgOk]

/-- Running an event list keeps the invariant of a configured machine (R23, R29). -/
theorem runLine_inv {s : State} (ops : List LineOp) (h : s.Inv) (hc : s.mlc.cfgOk = true) :
    (runLine ops s).Inv := by
  obtain ⟨p, is, ev, -, -, he | ⟨rest, -, -, -, he⟩⟩ := runLine_cases ops s <;> rw [he] <;>
    exact ⟨h.fc, ⟨h.mlc.configured, h.mlc.synchronized, h.mlc.disordered⟩, fun _ => hc⟩

/-- Every command keeps the invariant. -/
theorem exec_inv {i : Instr} (hs : s.Inv) (h : exec i s = .next t) : t.Inv := by
  cases i with
  | fcConsumeBit b =>
    obtain ⟨-, rfl⟩ := exec_fcConsumeBit_next h
    exact ⟨Frame.consumeBit_inv b hs.fc, hs.mlc, hs.blocked⟩
  | fcReset =>
    obtain rfl := exec_fcReset_next h
    exact ⟨Frame.empty_inv _, hs.mlc, hs.blocked⟩
  | fcIsValid =>
    obtain rfl := exec_fcIsValid_next h
    exact ⟨hs.fc, hs.mlc, hs.blocked⟩
  | fcBuild len =>
    obtain ⟨-, rfl⟩ | ⟨hl, rfl⟩ := exec_fcBuild_next h
    · exact ⟨hs.fc, hs.mlc, hs.blocked⟩
    · have : 1 ≤ len.toNat := by
        rw [Nat.one_le_iff_ne_zero]
        exact fun e => hl (BitVec.eq_of_toNat_eq (by simpa using e))
      exact ⟨⟨hs.fc.pbuf, preamble_const_lt _, by simp, fun _ => rfl, fun _ => this, by simp, by simp,
        by simp, by simp⟩, hs.mlc, hs.blocked⟩
  | fcSerialize sink =>
    obtain ⟨-, -, rfl⟩ | ⟨-, rfl⟩ | ⟨-, -, rfl⟩ | ⟨-, -, hc, rfl⟩ := exec_fcSerialize_next h
    · exact ⟨hs.fc, hs.mlc, hs.blocked⟩
    · exact ⟨hs.fc, hs.mlc, hs.blocked⟩
    · exact ⟨hs.fc, hs.mlc, hs.blocked⟩
    · exact runLine_inv _ hs hc
  | mcConfig x y =>
    obtain ⟨-, rfl⟩ | ⟨-, -, -, rfl⟩ | ⟨-, -, hx, rfl⟩ := exec_mcConfig_next h
    · exact ⟨hs.fc, hs.mlc, hs.blocked⟩
    · exact ⟨hs.fc, hs.mlc, hs.blocked⟩
    · exact ⟨hs.fc, ⟨fun _ => hx, fun _ => rfl, fun _ => rfl⟩, fun _ => rfl⟩
  | mcEncodeBit b =>
    obtain ⟨-, rfl⟩ | ⟨hc, rfl⟩ := exec_mcEncodeBit_next h
    · exact ⟨hs.fc, hs.mlc, hs.blocked⟩
    · exact runLine_inv _ hs hc
  | mcDecodeEdge dir route ts =>
    obtain ⟨-, rfl⟩ | ⟨hc, -, ⟨-, -, rfl⟩ | ⟨-, -, -, rfl⟩ | ⟨-, rfl⟩⟩ := exec_mcDecodeEdge_next h
    · exact ⟨hs.fc, hs.mlc, hs.blocked⟩
    · exact ⟨hs.fc, Mlc.afterEdge_inv ts hs.mlc hc, fun _ => by simpa using hc⟩
    · exact ⟨Frame.consumeBit_inv _ hs.fc, Mlc.afterEdge_inv ts hs.mlc hc, fun _ => by simpa using hc⟩
    · exact ⟨hs.fc, Mlc.afterEdge_inv ts hs.mlc hc, fun _ => by simpa using hc⟩
  | pbWrite idx byte =>
    obtain ⟨-, rfl⟩ | ⟨hi, rfl⟩ := exec_pbWrite_next h
    · exact ⟨hs.fc, hs.mlc, hs.blocked⟩
    · exact ⟨⟨Memory.write_wf hs.fc.pbuf (byte_lt_255 hi) byte, hs.fc.preWidth, hs.fc.inPreamble,
        hs.fc.pastPreamble, hs.fc.sized, hs.fc.inSize, hs.fc.inData, hs.fc.inChecksum, hs.fc.inDone⟩,
        hs.mlc, hs.blocked⟩
  | pbRead idx =>
    obtain ⟨-, rfl⟩ | ⟨-, rfl⟩ := exec_pbRead_next h <;> exact ⟨hs.fc, hs.mlc, hs.blocked⟩
  | regRead sel =>
    obtain ⟨-, rfl⟩ | ⟨r, -, rfl⟩ := exec_regRead_next h <;> exact ⟨hs.fc, hs.mlc, hs.blocked⟩

end Sys2Proof.Machine
end

