-- ==== Sys2Proof/Laws/Fields.lean ====
section
/-! SUPPORT. Feeding a Frame the bits of a whole field (R60): the preamble while it does not match, the size
byte, payload bytes one after the other, and the checksum. -/

namespace Sys2Proof.Machine

variable (p : Preamble)

@[simp] theorem Frame.consumeBits_nil (f : Frame) : f.consumeBits p [] = f := rfl

@[simp] theorem Frame.consumeBits_cons (f : Frame) (b : Bool) (bs : List Bool) :
    f.consumeBits p (b :: bs) = (f.consumeBit p b).consumeBits p bs := rfl

theorem Frame.consumeBits_append (f : Frame) (xs ys : List Bool) :
    f.consumeBits p (xs ++ ys) = (f.consumeBits p xs).consumeBits p ys := List.foldl_append

theorem Frame.consumeBit_of_preamble {f : Frame} (h : f.stage = .preamble) (b : Bool) :
    f.consumeBit p b = f.consumePreamble p b := by rw [Frame.consumeBit, h]

theorem Frame.consumeBit_of_size {f : Frame} (h : f.stage = .size) (b : Bool) :
    f.consumeBit p b = f.consumeSize b := by rw [Frame.consumeBit, h]

theorem Frame.consumeBit_of_data {f : Frame} (h : f.stage = .data) (b : Bool) :
    f.consumeBit p b = f.consumeData b := by rw [Frame.consumeBit, h]

theorem Frame.consumeBit_of_checksum {f : Frame} (h : f.stage = .checksum) (b : Bool) :
    f.consumeBit p b = f.consumeChecksum b := by rw [Frame.consumeBit, h]

theorem Frame.consumeBit_of_done {f : Frame} (h : f.stage = .done) (b : Bool) :
    f.consumeBit p b = f := by rw [Frame.consumeBit, h]

/-- ConsumeBit in PREAMBLE (R60). -/
theorem Frame.consumeBit_preamble {f : Frame} (h : f.stage = .preamble) (b : Bool) :
    f.consumeBit p b = if shiftPre p f.pre b = p.const
      then { f with pre := shiftPre p f.pre b, stage := .size, bitpos := 0 }
      else { f with pre := shiftPre p f.pre b } := by
  rw [Frame.consumeBit_of_preamble p h]; rfl

/-- Bits that complete no match only move through PRE (R62 corner case 1). -/
theorem Frame.consumeBits_preamble (f : Frame) (bs : List Bool) (h : f.stage = .preamble)
    (hn : ∀ n < bs.length, (bs.take (n + 1)).foldl (shiftPre p) f.pre ≠ p.const) :
    f.consumeBits p bs = { f with pre := bs.foldl (shiftPre p) f.pre } := by
  induction bs generalizing f with
  | nil => rfl
  | cons b bs ih =>
    have h0 : shiftPre p f.pre b ≠ p.const := by simpa using hn 0 (by simp)
    rw [Frame.consumeBits_cons, Frame.consumeBit_preamble p h, if_neg h0]
    exact ih _ h fun n hlt => by simpa using hn (n + 1) (by simpa using hlt)

/-- A search that lasts has met no match. -/
theorem Frame.preamble_no_match (f : Frame) (bs : List Bool) (h : f.stage = .preamble)
    (hs : ∀ n ≤ bs.length, (f.consumeBits p (bs.take n)).stage = .preamble) :
    f.consumeBits p bs = { f with pre := bs.foldl (shiftPre p) f.pre } := by
  induction bs generalizing f with
  | nil => rfl
  | cons b bs ih =>
    have h1 := hs 1 (by simp)
    rw [List.take_succ_cons, List.take_zero, Frame.consumeBits_cons, Frame.consumeBits_nil,
      Frame.consumeBit_preamble p h] at h1
    have h0 : ¬ shiftPre p f.pre b = p.const := by
      intro e; rw [if_pos e] at h1; cases h1
    rw [Frame.consumeBits_cons, Frame.consumeBit_preamble p h, if_neg h0]
    refine ih _ h fun n hlt => ?_
    have := hs (n + 1) (by simpa using hlt)
    rwa [List.take_succ_cons, Frame.consumeBits_cons, Frame.consumeBit_preamble p h, if_neg h0] at this

/-- No proper beginning of a nonzero preamble constant matches it from PRE = 0 (R67). -/
theorem preamble_no_early_match (hc : p.const ≠ 0) {n : Nat} (hn : n + 1 < 8 * p.bytes) :
    ((bitsMSB p.const (8 * p.bytes)).take (n + 1)).foldl (shiftPre p) 0 ≠ p.const := by
  intro h
  have h := congrArg BitVec.toNat h
  have hlt := preamble_const_lt p
  have h0 : p.const.toNat ≠ 0 := fun e => hc (BitVec.eq_of_toNat_eq (by simpa using e))
  have hdiv : p.const.toNat / 2 ^ (8 * p.bytes - (n + 1)) < p.const.toNat :=
    Nat.div_lt_self (by omega) (Nat.one_lt_two_pow (by omega))
  have hmod := Nat.mod_le (p.const.toNat / 2 ^ (8 * p.bytes - (n + 1))) (2 ^ (n + 1))
  rw [bitsMSB_take _ (by omega), foldl_shiftPre_toNat_of_ne_nil _ _ (by simp [bitsMSB]),
    bitsValue_bitsMSB, BitVec.toNat_ushiftRight, Nat.shiftRight_eq_div_pow, BitVec.ofNat_eq_ofNat,
    BitVec.toNat_ofNat, Nat.zero_mod, Nat.zero_mul, Nat.zero_add, Nat.mod_eq_of_lt (by omega)] at h
  omega

/-- The whole of a nonzero preamble constant from an empty Frame opens stage SIZE (R60, R67). -/
theorem Frame.consumeBits_preamble_const (hc : p.const ≠ 0) :
    Frame.empty.consumeBits p (bitsMSB p.const (8 * p.bytes)) =
      { Frame.empty with pre := p.const, stage := .size } := by
  have hN := preamble_bytes_pos p
  obtain ⟨xs, b, hxs⟩ : ∃ xs b, bitsMSB p.const (8 * p.bytes) = xs ++ [b] := by
    rcases List.eq_nil_or_concat (bitsMSB p.const (8 * p.bytes)) with h | ⟨xs, b, h⟩
    · have := congrArg List.length h; simp at this; omega
    · exact ⟨xs, b, by simpa using h⟩
  have hlen : xs.length + 1 = 8 * p.bytes := by
    have := congrArg List.length hxs; simp at this; omega
  have hlast : shiftPre p (xs.foldl (shiftPre p) Frame.empty.pre) b = p.const := by
    rw [show shiftPre p (xs.foldl (shiftPre p) Frame.empty.pre) b =
      (xs ++ [b]).foldl (shiftPre p) Frame.empty.pre by simp, ← hxs]
    apply BitVec.eq_of_toNat_eq
    rw [foldl_shiftPre_toNat_of_ne_nil _ _ (by rw [hxs]; simp), bitsValue_bitsMSB]
    simp [Nat.mod_eq_of_lt (preamble_const_lt p)]
  rw [hxs, Frame.consumeBits_append, Frame.consumeBits_preamble p Frame.empty xs rfl fun n hn => ?_]
  · rw [Frame.consumeBits_cons, Frame.consumeBits_nil, Frame.consumeBit_preamble p rfl, if_pos hlast]
    simp only [hlast]
    rfl
  · have := preamble_no_early_match p hc (n := n) (by omega)
    rwa [hxs, List.take_append_of_le_length (by omega)] at this

theorem bitpos_add {v : BitVec 11} {n : Nat} (h : v.toNat + n < 2048) :
    (v + BitVec.ofNat 11 n).toNat = v.toNat + n := by
  rw [BitVec.toNat_add, BitVec.toNat_ofNat]; omega

theorem bitpos_step (v : BitVec 11) (n : Nat) :
    v + 1 + BitVec.ofNat 11 n = v + BitVec.ofNat 11 (n + 1) := by
  rw [BitVec.ofNat_add, BitVec.add_assoc, BitVec.add_comm (BitVec.ofNat 11 n)]
  rfl

/-- Fewer bits than the size field has left (R60). -/
theorem Frame.consumeBits_size (f : Frame) (bs : List Bool) (h : f.stage = .size)
    (hb : f.bitpos.toNat + bs.length < 8) :
    f.consumeBits p bs = { f with
      size := bs.foldl shiftIn f.size, bitpos := f.bitpos + BitVec.ofNat 11 bs.length } := by
  induction bs generalizing f with
  | nil => simp
  | cons b bs ih =>
    rw [List.length_cons] at hb
    have he : f.consumeBit p b = { f with size := shiftIn f.size b, bitpos := f.bitpos + 1 } := by
      rw [Frame.consumeBit_of_size p h, Frame.consumeSize, if_neg (by omega)]
    rw [Frame.consumeBits_cons, he,
      ih { f with size := shiftIn f.size b, bitpos := f.bitpos + 1 } h
        (by dsimp only; rw [bitpos_succ (by omega)]; omega)]
    simp only [List.foldl_cons, List.length_cons, bitpos_step]

/-- The whole size field (R60): a zero size resets the Frame, any other opens the payload. -/
theorem Frame.consumeBits_size_byte (f : Frame) (v : Byte) (h : f.stage = .size) (hb : f.bitpos = 0) :
    f.consumeBits p (bitsMSB v 8) = if v = 0 then Frame.empty
      else { f with size := v, pbuf := [], stage := .data, bitpos := 0 } := by
  have hv : (bitsMSB v 8).foldl shiftIn f.size = v := foldl_shiftIn_bitsMSB f.size v
  have hsplit : bitsMSB v 8 = (bitsMSB v 8).dropLast ++ [v.getLsbD 0] := rfl
  have hlen : (bitsMSB v 8).dropLast.length = 7 := rfl
  rw [hsplit] at hv ⊢
  rw [List.foldl_append] at hv
  rw [Frame.consumeBits_append, Frame.consumeBits_size p f _ h (by rw [hb, hlen]; decide), hlen,
    Frame.consumeBits_cons, Frame.consumeBits_nil, Frame.consumeBit_of_size p (by exact h)]
  rw [Frame.consumeSize, if_pos (by dsimp only; rw [hb]; decide)]
  simp only [List.foldl_cons, List.foldl_nil] at hv
  simp only [hv]

/-- ConsumeBit in DATA while the payload goes on (R60). -/
theorem Frame.consumeBit_data {f : Frame} (h : f.stage = .data) (b : Bool) :
    f.consumeBit p b =
      let pbuf := f.pbuf.write (f.bitpos.toNat / 8) (shiftIn (f.pbuf.read (f.bitpos.toNat / 8)) b)
      if f.bitpos.toNat + 1 = 8 * f.size.toNat then
        { f with pbuf := pbuf, stage := .checksum, bitpos := 0 }
      else { f with pbuf := pbuf, bitpos := f.bitpos + 1 } := by
  rw [Frame.consumeBit_of_data p h]; rfl

/-- Fewer bits than the payload has left: the stage stays and BITPOS counts them (R21). -/
theorem Frame.consumeBits_data (f : Frame) (bs : List Bool) (h : f.stage = .data)
    (hb : f.bitpos.toNat + bs.length < 8 * f.size.toNat) :
    (f.consumeBits p bs).stage = .data ∧ (f.consumeBits p bs).size = f.size ∧
      (f.consumeBits p bs).bitpos.toNat = f.bitpos.toNat + bs.length := by
  induction bs generalizing f with
  | nil => exact ⟨h, rfl, rfl⟩
  | cons b bs ih =>
    have hs := f.size.isLt
    rw [List.length_cons] at hb ⊢
    rw [Frame.consumeBits_cons, Frame.consumeBit_data p h]
    dsimp only
    rw [if_neg (by omega)]
    have hb' : (f.bitpos + 1).toNat = f.bitpos.toNat + 1 := bitpos_succ (by omega)
    obtain ⟨h1, h2, h3⟩ := ih { f with
      pbuf := f.pbuf.write (f.bitpos.toNat / 8) (shiftIn (f.pbuf.read (f.bitpos.toNat / 8)) b)
      bitpos := f.bitpos + 1 } h (by dsimp only; rw [hb']; omega)
    exact ⟨h1, h2, h3.trans (by dsimp only; rw [hb']; omega)⟩

/-- Bits inside payload byte k: they shift into that byte and touch no other (R60). -/
theorem Frame.consumeBits_in_byte (f : Frame) (bs : List Bool) (k : Nat) (h : f.stage = .data)
    (hw : f.pbuf.wf) (hk : k < f.size.toNat) (hlo : 8 * k ≤ f.bitpos.toNat)
    (hhi : f.bitpos.toNat + bs.length < 8 * (k + 1)) :
    ∃ m : Memory, f.consumeBits p bs = { f with
        pbuf := m, bitpos := f.bitpos + BitVec.ofNat 11 bs.length } ∧ m.wf ∧
      ∀ i, m.read i = if i = k then bs.foldl shiftIn (f.pbuf.read k) else f.pbuf.read i := by
  induction bs generalizing f with
  | nil => exact ⟨f.pbuf, by simp, hw, fun i => by split <;> simp_all⟩
  | cons b bs ih =>
    have hs := f.size.isLt
    rw [List.length_cons] at hhi
    have hdiv : f.bitpos.toNat / 8 = k := by omega
    have hb' : (f.bitpos + 1).toNat = f.bitpos.toNat + 1 := bitpos_succ (by omega)
    rw [Frame.consumeBits_cons, Frame.consumeBit_data p h]
    dsimp only
    rw [if_neg (by omega), hdiv]
    obtain ⟨m, he, hm, hr⟩ := ih { f with
      pbuf := f.pbuf.write k (shiftIn (f.pbuf.read k) b), bitpos := f.bitpos + 1 } h
      (Memory.write_wf hw (by omega) _) hk (by dsimp only; omega) (by dsimp only; omega)
    refine ⟨m, ?_, hm, fun i => ?_⟩
    · rw [he]; simp only [List.length_cons, bitpos_step]
    · rw [hr i]
      dsimp only
      rw [Memory.read_write hw.1, Memory.read_write hw.1]
      split_ifs <;> simp_all

/-- One whole payload byte (R60). -/
theorem Frame.consumeBits_data_byte (f : Frame) (v : Byte) (k : Nat) (h : f.stage = .data)
    (hw : f.pbuf.wf) (hk : k < f.size.toNat) (hb : f.bitpos.toNat = 8 * k) :
    ∃ m : Memory, m.wf ∧ (∀ i, m.read i = if i = k then v else f.pbuf.read i) ∧
      f.consumeBits p (bitsMSB v 8) = if k + 1 = f.size.toNat
        then { f with pbuf := m, stage := .checksum, bitpos := 0 }
        else { f with pbuf := m, bitpos := BitVec.ofNat 11 (8 * (k + 1)) } := by
  have hs := f.size.isLt
  have hv : (bitsMSB v 8).foldl shiftIn (f.pbuf.read k) = v := foldl_shiftIn_bitsMSB _ v
  have hsplit : bitsMSB v 8 = (bitsMSB v 8).dropLast ++ [v.getLsbD 0] := rfl
  have hlen : (bitsMSB v 8).dropLast.length = 7 := rfl
  rw [hsplit, List.foldl_append] at hv
  obtain ⟨m, he, hm, hr⟩ := Frame.consumeBits_in_byte p f (bitsMSB v 8).dropLast k h hw hk (by omega)
    (by rw [hlen]; omega)
  have hb7 : (f.bitpos + BitVec.ofNat 11 7).toNat = 8 * k + 7 := by
    rw [bitpos_add (by omega)]; omega
  have hdiv : (8 * k + 7) / 8 = k := by omega
  refine ⟨m.write k v, Memory.write_wf hm (by omega) v, fun i => ?_, ?_⟩
  · rw [Memory.read_write hm.1, hr]; split_ifs <;> rfl
  · rw [hsplit, Frame.consumeBits_append, he, hlen, Frame.consumeBits_cons, Frame.consumeBits_nil,
      Frame.consumeBit_data p (by exact h)]
    dsimp only
    rw [hb7, hdiv, hr, if_pos rfl]
    simp only [List.foldl_cons, List.foldl_nil] at hv
    rw [hv]
    by_cases hl : k + 1 = f.size.toNat
    · rw [if_pos (by omega), if_pos hl]
    · rw [if_neg (by omega), if_neg hl]
      simp only [Frame.mk.injEq, true_and, and_true]
      apply BitVec.eq_of_toNat_eq
      rw [bitpos_succ (by omega), hb7, BitVec.toNat_ofNat]
      omega

/-- The rest of the payload, from byte k on (R60). -/
theorem Frame.consumeBits_payload (f : Frame) (bytes : List Byte) (k : Nat) (h : f.stage = .data)
    (hw : f.pbuf.wf) (hne : bytes ≠ []) (hk : k + bytes.length = f.size.toNat)
    (hb : f.bitpos.toNat = 8 * k) :
    ∃ m : Memory, m.wf ∧
      (∀ i, m.read i = if k ≤ i ∧ i < f.size.toNat then bytes.getD (i - k) 0 else f.pbuf.read i) ∧
      f.consumeBits p (bytes.flatMap fun v => bitsMSB v 8) =
        { f with pbuf := m, stage := .checksum, bitpos := 0 } := by
  induction bytes generalizing f k with
  | nil => exact absurd rfl hne
  | cons v bytes ih =>
    have hs := f.size.isLt
    rw [List.length_cons] at hk
    obtain ⟨m, hm, hr, he⟩ := Frame.consumeBits_data_byte p f v k h hw (by omega) hb
    rw [List.flatMap_cons, Frame.consumeBits_append, he]
    cases bytes with
    | nil =>
      rw [List.length_nil] at hk
      refine ⟨m, hm, fun i => ?_, by rw [if_pos (by omega)]; rfl⟩
      rw [hr]
      by_cases hik : i = k
      · rw [if_pos hik, if_pos (by omega), hik]; simp
      · rw [if_neg hik, if_neg (by omega)]
    | cons u bytes =>
      rw [List.length_cons] at hk
      rw [if_neg (by omega)]
      obtain ⟨m', hm', hr', he'⟩ := ih { f with pbuf := m, bitpos := BitVec.ofNat 11 (8 * (k + 1)) }
        (k + 1) h hm (by simp) (by rw [List.length_cons]; dsimp only; omega)
        (by dsimp only; rw [BitVec.toNat_ofNat]; omega)
      refine ⟨m', hm', fun i => ?_, he'⟩
      rw [hr']
      dsimp only
      rw [hr]
      by_cases hik : i = k
      · rw [if_neg (by omega), if_pos hik, if_pos (by omega), hik]; simp
      · by_cases hlt : k + 1 ≤ i ∧ i < f.size.toNat
        · obtain ⟨j, rfl⟩ : ∃ j, i = k + 1 + j := ⟨i - (k + 1), by omega⟩
          rw [if_pos hlt, if_pos (by omega), show k + 1 + j - k = j + 1 by omega,
            show k + 1 + j - (k + 1) = j by omega, List.getD_cons_succ]
        · rw [if_neg hlt, if_neg hik, if_neg (by omega)]

/-- Fewer bits than the checksum has left (R60). -/
theorem Frame.consumeBits_checksum (f : Frame) (bs : List Bool) (h : f.stage = .checksum)
    (hb : f.bitpos.toNat + bs.length < 32) :
    f.consumeBits p bs = { f with
      csum := bs.foldl shiftIn f.csum, bitpos := f.bitpos + BitVec.ofNat 11 bs.length } := by
  induction bs generalizing f with
  | nil => simp
  | cons b bs ih =>
    rw [List.length_cons] at hb
    have he : f.consumeBit p b = { f with csum := shiftIn f.csum b, bitpos := f.bitpos + 1 } := by
      rw [Frame.consumeBit_of_checksum p h, Frame.consumeChecksum, if_neg (by omega)]
    rw [Frame.consumeBits_cons, he,
      ih { f with csum := shiftIn f.csum b, bitpos := f.bitpos + 1 } h
        (by dsimp only; rw [bitpos_succ (by omega)]; omega)]
    simp only [List.foldl_cons, List.length_cons, bitpos_step]

/-- The whole checksum field (R60). -/
theorem Frame.consumeBits_checksum_word (f : Frame) (v : Word) (h : f.stage = .checksum)
    (hb : f.bitpos = 0) :
    f.consumeBits p (bitsMSB v 32) = { f with csum := v, stage := .done, bitpos := 0 } := by
  have hv : (bitsMSB v 32).foldl shiftIn f.csum = v := foldl_shiftIn_bitsMSB f.csum v
  have hsplit : bitsMSB v 32 = (bitsMSB v 32).dropLast ++ [v.getLsbD 0] := rfl
  have hlen : (bitsMSB v 32).dropLast.length = 31 := rfl
  rw [hsplit] at hv ⊢
  rw [List.foldl_append] at hv
  rw [Frame.consumeBits_append, Frame.consumeBits_checksum p f _ h (by rw [hb, hlen]; decide), hlen,
    Frame.consumeBits_cons, Frame.consumeBits_nil, Frame.consumeBit_of_checksum p (by exact h)]
  rw [Frame.consumeChecksum, if_pos (by dsimp only; rw [hb]; decide)]
  simp only [List.foldl_cons, List.foldl_nil] at hv
  simp only [hv]

/-- DONE ignores bits (R60). -/
theorem Frame.consumeBits_done (f : Frame) (bs : List Bool) (h : f.stage = .done) :
    f.consumeBits p bs = f := by
  induction bs with
  | nil => rfl
  | cons b bs ih => rw [Frame.consumeBits_cons, Frame.consumeBit_of_done p h]; exact ih

end Sys2Proof.Machine
end

