-- ==== Sys2Proof/Laws/Issue.lean ====
section
/-! SUPPORT. The host issuing a list of commands (R43): one list after another, a list of FC_CONSUME_BITs as a
bit sequence, and a list of PB_WRITEs as bytes in PBUF. -/

namespace Sys2Proof.Machine

theorem issue_append (xs ys : List Instr) (s : State) :
    Env.issue (xs ++ ys) s = (Env.issue xs s).bind (Env.issue ys) := by
  induction xs generalizing s with
  | nil => rfl
  | cons x xs ih =>
    rw [List.cons_append, Env.issue, Env.issue]
    split
    · split
      · exact ih _
      · rfl
    · rfl
    · rfl

/-- A list of FC_CONSUME_BITs is the bit sequence fed to the Frame. -/
theorem issue_consumeBits (bits : List Bool) (s : State) (hi : s.fc.Inv s.preamble)
    (hb : s.blocked = none) :
    ∃ outputs, Env.issue (bits.map .fcConsumeBit) s =
      some { s with fc := s.fc.consumeBits s.preamble bits, outputs := outputs } := by
  induction bits generalizing s with
  | nil => exact ⟨s.outputs, rfl⟩
  | cons b bits ih =>
    rw [List.map_cons, Env.issue, exec, execFcConsumeBit, Frame.overrun_eq_false hi]
    simp only [Bool.false_eq_true, if_false]
    rw [if_pos (by simpa using hb)]
    obtain ⟨outputs, h⟩ := ih (State.respond (boolResult (s.fc.consumeBit s.preamble b).isDone)
      { s with fc := s.fc.consumeBit s.preamble b }) (Frame.consumeBit_inv b hi) hb
    exact ⟨outputs, h⟩

/-- A time below 2^64 is its own timestamp (R52). -/
theorem timestamp_toNat {time : Nat} (h : time < 2 ^ 64) : (Env.timestamp time).toNat = time := by
  rw [Env.timestamp, BitVec.toNat_ofNat, Nat.mod_eq_of_lt h]

theorem ofNat_byte_toNat {k : Nat} (h : k < 256) : (BitVec.ofNat 8 k).toNat = k := by
  rw [BitVec.toNat_ofNat]; omega

theorem ofNat_byte_ne_255 {k : Nat} (h : k < 255) : BitVec.ofNat 8 k ≠ 255 := by
  intro e
  have := congrArg BitVec.toNat e
  rw [ofNat_byte_toNat (by omega)] at this
  exact absurd this (by simp; omega)

/-- A list of PB_WRITEs at rising indices puts its bytes into PBUF. -/
theorem issue_pbWrites (bytes : List Byte) (k : Nat) (s : State) (hw : s.fc.pbuf.wf)
    (hb : s.blocked = none) (hk : k + bytes.length ≤ 255) :
    ∃ m outputs, m.wf ∧
      (∀ i, m.read i =
        if k ≤ i ∧ i < k + bytes.length then bytes.getD (i - k) 0 else s.fc.pbuf.read i) ∧
      Env.issue (bytes.mapIdx fun j byte => .pbWrite (BitVec.ofNat 8 (j + k)) byte) s =
        some { s with fc := { s.fc with pbuf := m }, outputs := outputs } := by
  induction bytes generalizing k s with
  | nil => exact ⟨s.fc.pbuf, s.outputs, hw, fun i => by rw [if_neg]; simp, rfl⟩
  | cons b bytes ih =>
    rw [List.length_cons] at hk
    have hkn := ofNat_byte_toNat (k := k) (by omega)
    obtain ⟨m, outputs, hm, hr, he⟩ := ih (k + 1)
      (State.respond 0 { s with fc := { s.fc with pbuf := s.fc.pbuf.write k b } })
      (Memory.write_wf hw (by omega) _) hb (by omega)
    refine ⟨m, outputs, hm, fun i => ?_, ?_⟩
    · rw [hr]
      simp only [State.respond_fc]
      rw [Memory.read_write hw.1, List.length_cons]
      by_cases hik : i = k
      · rw [if_neg (by omega), if_pos hik, if_pos (by omega), hik]; simp
      · by_cases hlt : k + 1 ≤ i ∧ i < k + 1 + bytes.length
        · obtain ⟨j, rfl⟩ : ∃ j, i = k + 1 + j := ⟨i - (k + 1), by omega⟩
          rw [if_pos hlt, if_pos (by omega), show k + 1 + j - k = j + 1 by omega,
            show k + 1 + j - (k + 1) = j by omega, List.getD_cons_succ]
        · rw [if_neg hlt, if_neg hik, if_neg (by omega)]
    · rw [List.mapIdx_cons, Env.issue, exec, execPbWrite, pbufIndex?, Nat.zero_add,
        if_neg (ofNat_byte_ne_255 (by omega)), hkn]
      dsimp only
      rw [if_pos (by simpa using hb)]
      have hf : (fun i byte => Instr.pbWrite (BitVec.ofNat 8 (i + 1 + k)) byte) =
          fun j byte => Instr.pbWrite (BitVec.ofNat 8 (j + (k + 1))) byte := by
        funext j byte; rw [show j + 1 + k = j + (k + 1) by omega]
      rw [hf, he]
      rfl

/-- A buffer that reads as a list of bytes holds it. -/
theorem Memory.bytes_of_read {m : Memory} {l : List Byte}
    (h : ∀ i < l.length, m.read i = l.getD i 0) : m.bytes l.length = l := by
  apply List.ext_getElem
  · simp
  · intro i _ h2
    simp [Memory.bytes, h i h2, h2]

end Sys2Proof.Machine
end

