-- ==== Sys2Proof/Laws/Operands.lean ====
section
/-! SUPPORT. The operand checks as inequalities on numbers (R34, R35, R68). -/

namespace Sys2Proof.Machine

theorem fits32_iff (x : DWord) : fits32 x = true ↔ x.toNat < 2 ^ 32 := by
  have h0 : BitVec.toNat (0 : BitVec 32) = 0 := rfl
  have := x.isLt
  rw [fits32, beq_iff_eq, ← BitVec.toNat_inj, BitVec.extractLsb'_toNat, h0, Nat.shiftRight_eq_div_pow]
  omega

theorem fits32_eq_false_iff (x : DWord) : fits32 x = false ↔ 2 ^ 32 ≤ x.toNat := by
  rw [← Bool.not_eq_true, fits32_iff]; omega

@[simp] theorem low32_toNat (x : DWord) : (low32 x).toNat = x.toNat % 2 ^ 32 := by
  rw [low32, BitVec.extractLsb'_toNat]; simp

theorem low32_eq_zero_iff (x : DWord) : low32 x = 0 ↔ x.toNat % 2 ^ 32 = 0 := by
  rw [← BitVec.toNat_inj, low32_toNat]; simp

theorem low32_eq (x : DWord) : low32 x = BitVec.ofNat 32 x.toNat := by
  apply BitVec.eq_of_toNat_eq
  rw [low32_toNat]; simp

/-- The reserved selectors (R35). -/
theorem ofSelector?_eq_none_iff (a : Byte) : Reg.ofSelector? a = none ↔ 12 ≤ a.toNat := by
  rw [Reg.ofSelector?]
  split
  case h_13 => simp only [true_iff]; by_contra h; interval_cases a.toNat <;> simp_all
  all_goals simp only [reduceCtorEq, false_iff, not_le]; omega

theorem eq_zero_iff_toNat {n : Nat} (x : BitVec n) : x = 0 ↔ x.toNat = 0 := by
  rw [← BitVec.toNat_inj]; simp

end Sys2Proof.Machine
end

