-- ==== Sys2Proof/Laws/PerInstr.lean ====
section
/-! SUPPORT. What holds of every command as syntax, one lemma per constructor. -/

/-- The encoded word of a command carries its opcode and sets no bit outside the fields its opcode uses:
it passes the decoder's checks (R50). -/
def Sys2Proof.Laws.EncodedWordPassesTheChecks.Statement (i : Sys2Proof.Instr) : Prop :=
  (Sys2Proof.encode i).opc = i.opcode.code ∧
    (Sys2Proof.encode i).cmd &&& i.opcode.mask = i.opcode.matchWord

namespace Sys2Proof.Laws

/-- The mask test on a word built from fields, from the bits of the mask and of the fields. -/
theorem mask_cmdWord {o : Opcode} {a d : Byte} {b r : Bool}
    (h : ∀ i < 32, 8 ≤ i → o.mask.getLsbD i = true → (cmdWord o a d b r).getLsbD i = false) :
    cmdWord o a d b r &&& o.mask = o.matchWord := by
  apply BitVec.eq_of_getLsbD_eq
  intro i hi
  rw [BitVec.getLsbD_and, Opcode.matchWord, BitVec.getLsbD_setWidth]
  by_cases h8 : i < 8
  · have hmask : o.mask.getLsbD i = true := by cases o <;> interval_cases i <;> decide
    rw [hmask, cmdWord_getLsbD, if_pos h8, Bool.and_true, decide_eq_true hi, Bool.true_and]
  · have hz : o.code.getLsbD i = false := BitVec.getLsbD_of_ge _ _ (by omega)
    rcases hm : o.mask.getLsbD i with - | -
    · simp [hz]
    · simp [hz, h i hi (by omega) hm]

end Sys2Proof.Laws

namespace Sys2Proof.Laws.EncodedWordPassesTheChecks

theorem fcConsumeBit (b : Bool) : Statement (.fcConsumeBit b) :=
  ⟨opc_cmdWord .., mask_cmdWord fun i hi h8 hm => by
    rw [cmdWord_getLsbD]; interval_cases i <;> first | rfl | exact absurd hm (by decide)⟩

theorem fcReset : Statement .fcReset := by unfold Statement; decide

theorem fcIsValid : Statement .fcIsValid := by unfold Statement; decide

theorem fcBuild (len : Byte) : Statement (.fcBuild len) :=
  ⟨opc_cmdWord .., mask_cmdWord fun i hi h8 hm => by
    rw [cmdWord_getLsbD]; interval_cases i <;> first | rfl | exact absurd hm (by decide)⟩

theorem fcSerialize (sink : Sink) : Statement (.fcSerialize sink) := by
  unfold Statement; cases sink <;> decide

theorem mcConfig (h s : DWord) : Statement (.mcConfig h s) :=
  ⟨opc_cmdWord .., (by decide : cmdWord .mcConfig 0 0 false false &&& Opcode.mcConfig.mask =
    Opcode.mcConfig.matchWord)⟩

theorem mcEncodeBit (b : Bool) : Statement (.mcEncodeBit b) := by
  unfold Statement; cases b <;> decide

theorem mcDecodeEdge (dir : Direction) (route : Route) (ts : DWord) :
    Statement (.mcDecodeEdge dir route ts) :=
  ⟨opc_cmdWord .., mask_cmdWord fun i hi h8 hm => by
    rw [cmdWord_getLsbD]; interval_cases i <;> first | rfl | exact absurd hm (by decide)⟩

theorem pbWrite (idx byte : Byte) : Statement (.pbWrite idx byte) :=
  ⟨opc_cmdWord .., mask_cmdWord fun i hi h8 hm => by
    rw [cmdWord_getLsbD]; interval_cases i <;> first | rfl | exact absurd hm (by decide)⟩

theorem pbRead (idx : Byte) : Statement (.pbRead idx) :=
  ⟨opc_cmdWord .., mask_cmdWord fun i hi h8 hm => by
    rw [cmdWord_getLsbD]; interval_cases i <;> first | rfl | exact absurd hm (by decide)⟩

theorem regRead (sel : Byte) : Statement (.regRead sel) :=
  ⟨opc_cmdWord .., mask_cmdWord fun i hi h8 hm => by
    rw [cmdWord_getLsbD]; interval_cases i <;> first | rfl | exact absurd hm (by decide)⟩

end Sys2Proof.Laws.EncodedWordPassesTheChecks
end

