-- ==== Sys2Proof/Laws/Step.lean ====
section
/-! SUPPORT. Everything a step can do when it answers a next state. -/

namespace Sys2Proof.Machine

variable {s t : State}

/-- With no command blocked, the command at the head of the inputs is performed (R12, R97). -/
theorem step_command {c : Command} {rest : List Input} (hb : s.blocked = none)
    (hi : s.inputs = .command c :: rest) : step s = runCommand c { s with inputs := rest } := by
  rw [step, State.fetch, hb, hi]

/-- The four things a step can do: wait, perform a command, go on after a SLEEP, or reset. -/
theorem step_cases (h : step s = .next t) :
    (s.fetch = .wait ∧ t = s) ∨
    (∃ c rest, s.blocked = none ∧ s.inputs = .command c :: rest ∧
      runCommand c { s with inputs := rest } = .next t) ∨
    (∃ ops rest, s.blocked = some ops ∧ takeSignal s.inputs = some (.sleepDone, rest) ∧
      t = runLine ops { s with inputs := rest }) ∨
    (∃ rest, rest.filter Input.isCommand = s.inputs.filter Input.isCommand ∧
      s.fetch = .reset { s with inputs := rest } ∧
      t = State.hardwareReset { s with inputs := rest }) := by
  rw [step] at h
  split at h
  · next hf => cases h; exact .inl ⟨hf, rfl⟩
  · next c s' hf =>
    rw [State.fetch] at hf
    split at hf
    · split at hf <;> cases hf
    · next hb =>
      split at hf <;> cases hf
      next hi => exact .inr (.inl ⟨_, _, hb, hi, h⟩)
  · next ops s' hf =>
    rw [State.fetch] at hf
    split at hf
    · next hb =>
      split at hf <;> cases hf
      next hi => cases h; exact .inr (.inr (.inl ⟨_, _, hb, hi, rfl⟩))
    · split at hf <;> cases hf
  · next s' hf =>
    have hf' := hf
    rw [State.fetch] at hf
    split at hf
    · split at hf <;> cases hf
      next hi => cases h; exact .inr (.inr (.inr ⟨_, takeSignal_isCommand hi, hf', rfl⟩))
    · split at hf <;> cases hf
      next hi => cases h; exact .inr (.inr (.inr ⟨_, by rw [hi]; simp [Input.isCommand], hf', rfl⟩))
  · cases h

/-- A performed command either is rejected by the decoder or is its meaning. -/
theorem runCommand_cases {c : Command} (h : runCommand c s = .next t) :
    (∃ e, decode c = .error e ∧ t = s.raise (rejectStatus e)) ∨
    (∃ i, decode c = .ok i ∧ exec i s = .next t) := by
  rw [runCommand] at h
  split at h
  · next hd => cases h; exact .inl ⟨_, hd, rfl⟩
  · next hd => exact .inr ⟨_, hd, h⟩

end Sys2Proof.Machine
end

