-- ==== Sys2Proof/Laws/Summary.lean ====
section
/-! SUPPORT. What every command has in common when it answers a next state: the parameters stay, no command
waiting at the port is lost, and the outputs grow by events and then either one response or a SLEEP that is
awaited; a response with an error status leaves everything else as it was. -/

namespace Sys2Proof.Machine

/-- What any command does to a state. -/
structure Summary (s t : State) : Prop where
  preamble : t.preamble = s.preamble
  commands : t.inputs.filter Input.isCommand = s.inputs.filter Input.isCommand
  outputs : ∃ events : List Output, (∀ o ∈ events, o.isResponse = false) ∧
    (((t.blocked = s.blocked ∨ t.blocked = none) ∧
        ∃ r : Response, t.outputs = s.outputs ++ events ++ [.response r] ∧
          (r.st ≠ .ok → r.result = 0 ∧ t = s.raise r.st)) ∨
      (t.blocked ≠ none ∧ events.getLast? = some .sleep ∧ t.outputs = s.outputs ++ events))

variable {s t : State}

theorem Summary.respond {fc : Frame} {mlc : Mlc} {r : DWord}
    (h : t = State.respond r { s with fc := fc, mlc := mlc }) : Summary s t := by
  subst h
  exact ⟨rfl, rfl, [], by simp, .inl ⟨.inl rfl, ⟨.ok, r⟩, by simp, by simp⟩⟩

theorem Summary.raise {e : Status} (h : t = s.raise e) : Summary s t := by
  subst h
  exact ⟨rfl, rfl, [], by simp, .inl ⟨.inl rfl, ⟨e, 0⟩, by simp, fun _ => ⟨rfl, rfl⟩⟩⟩

theorem isResponse_of_line {events : List Output} (h : ∀ o ∈ events, o = .sleep ∨ ∃ l, o = .sig l) :
    ∀ o ∈ events, o.isResponse = false := by
  intro o ho
  obtain rfl | ⟨l, rfl⟩ := h o ho <;> rfl

theorem Summary.line {ops : List LineOp} (h : t = runLine ops s) : Summary s t := by
  subst h
  obtain ⟨p, is, ev, hi, he, h | ⟨rest, -, -, hl, h⟩⟩ := runLine_cases ops s
  · rw [h]; exact ⟨rfl, hi, ev, isResponse_of_line he, .inl ⟨.inr rfl, _, rfl, by simp⟩⟩
  · rw [h]; exact ⟨rfl, hi, ev, isResponse_of_line he, .inr ⟨by simp, hl, rfl⟩⟩

/-- Every command. -/
theorem exec_summary {i : Instr} (h : exec i s = .next t) : Summary s t := by
  cases i with
  | fcConsumeBit b => exact .respond (exec_fcConsumeBit_next h).2
  | fcReset => exact .respond (exec_fcReset_next h)
  | fcIsValid => exact .respond (fc := s.fc) (mlc := s.mlc) (exec_fcIsValid_next h)
  | fcBuild len =>
    obtain ⟨-, h⟩ | ⟨-, h⟩ := exec_fcBuild_next h
    · exact .raise h
    · exact .respond h
  | fcSerialize sink =>
    obtain ⟨-, -, h⟩ | ⟨-, h⟩ | ⟨-, -, rfl⟩ | ⟨-, -, -, h⟩ := exec_fcSerialize_next h
    · exact .raise h
    · exact .raise h
    · refine ⟨rfl, rfl, (s.fc.wireStream s.preamble).map .bit, ?_,
        .inl ⟨.inl rfl, ⟨.ok, 0⟩, rfl, by simp⟩⟩
      intro o ho
      obtain ⟨b, -, rfl⟩ := List.mem_map.1 ho
      rfl
    · exact .line h
  | mcConfig x y =>
    obtain ⟨-, h⟩ | ⟨-, -, -, h⟩ | ⟨-, -, -, h⟩ := exec_mcConfig_next h
    · exact .raise h
    · exact .raise h
    · exact .respond h
  | mcEncodeBit b =>
    obtain ⟨-, h⟩ | ⟨-, h⟩ := exec_mcEncodeBit_next h
    · exact .raise h
    · exact .line h
  | mcDecodeEdge dir route ts =>
    obtain ⟨-, h⟩ | ⟨-, -, ⟨-, -, rfl⟩ | ⟨-, -, -, h⟩ | ⟨-, h⟩⟩ := exec_mcDecodeEdge_next h
    · exact .raise h
    · exact ⟨rfl, rfl, [.bit dir.bit], by simp [Output.isResponse],
        .inl ⟨.inl rfl, ⟨.ok, _⟩, rfl, by simp⟩⟩
    · exact .respond h
    · exact .respond h
  | pbWrite idx byte =>
    obtain ⟨-, h⟩ | ⟨-, h⟩ := exec_pbWrite_next h
    · exact .raise h
    · exact .respond h
  | pbRead idx =>
    obtain ⟨-, h⟩ | ⟨-, h⟩ := exec_pbRead_next h
    · exact .raise h
    · exact .respond (fc := s.fc) (mlc := s.mlc) h
  | regRead sel =>
    obtain ⟨-, h⟩ | ⟨_, -, h⟩ := exec_regRead_next h
    · exact .raise h
    · exact .respond (fc := s.fc) (mlc := s.mlc) h

end Sys2Proof.Machine
end

