-- ==== Sys2Proof/Laws/Wire.lean ====
section
/-! SUPPORT. The wire stream's length and last bit, and the time the encoder's outputs take. -/

namespace Sys2Proof.Machine

theorem wireStream_length (p : Preamble) (f : Frame) :
    (f.wireStream p).length = 8 * p.bytes + 8 + 8 * f.size.toNat + 32 := by
  rw [Frame.wireStream]
  simp [List.length_flatMap, Frame.payload]
  omega

/-- The last bit on the wire is the checksum's lowest (R37, R55). -/
theorem wireStream_last (p : Preamble) (f : Frame) (x : Bool) :
    (f.wireStream p).getLastD x = f.csum.getLsbD 0 := by
  have h : bitsMSB f.csum 32 =
      ((List.range 31).map fun j => f.csum.getLsbD (31 - j)) ++ [f.csum.getLsbD 0] := by
    rw [bitsMSB_eq_range, List.range_succ, List.map_append]; rfl
  rw [Frame.wireStream, h, ← List.append_assoc, List.getLastD_concat]

/-- Each bit takes two SLEEPs (R69, R105). -/
theorem endTime_lineOutputs (h : Nat) (prev : Bool) (bits : List Bool) (t : Nat) :
    Env.endTime h t (lineOutputs prev bits) = t + 2 * h * bits.length := by
  induction bits generalizing prev t with
  | nil => simp [lineOutputs, Env.endTime]
  | cons b bits ih =>
    rw [lineOutputs]
    split <;> simp only [List.nil_append, List.cons_append, Env.endTime, ih, List.length_cons] <;> ring

end Sys2Proof.Machine
end

