-- ==== Sys2Proof/Tests/Slice0.lean ====
section
/-! SUPPORT. Tests of the model, and one witness per hypothesis set of the statements. The expected results are
those of spec/95_test_vectors.md, named at each test, or words written out from 30_encoding.md R48 and R49. -/

namespace Sys2Proof.Machine.Tests

/-! ### Well-formedness: an ill-formed command for each check, refused -/

theorem test_wf_config_h_wide : ¬ (Instr.mcConfig 0x100000000 600).WellFormed := by decide
theorem test_wf_config_s_wide : ¬ (Instr.mcConfig 1000 0x100000000).WellFormed := by decide
theorem test_wf_config_h_zero : ¬ (Instr.mcConfig 0 600).WellFormed := by decide
theorem test_wf_build_empty : ¬ (Instr.fcBuild 0).WellFormed := by decide
theorem test_wf_write_index : ¬ (Instr.pbWrite 255 1).WellFormed := by decide
theorem test_wf_read_index : ¬ (Instr.pbRead 255).WellFormed := by decide
theorem test_wf_selector : ¬ (Instr.regRead 0x0C).WellFormed := by decide

/-! ### Decoding: a word of each constructor written out bit by bit from R48 (reserved, R, B, D, A, OPC) and R49 -/

theorem test_decode_fcConsumeBit :
    decode ⟨0b000000_0_1_00000000_00000000_00010000, 0, 0⟩ = .ok (.fcConsumeBit true) := rfl
theorem test_decode_fcReset :
    decode ⟨0b000000_0_0_00000000_00000000_00010001, 0, 0⟩ = .ok .fcReset := rfl
theorem test_decode_fcIsValid :
    decode ⟨0b000000_0_0_00000000_00000000_00010010, 0, 0⟩ = .ok .fcIsValid := rfl
theorem test_decode_fcBuild :
    decode ⟨0b000000_0_0_00000000_10000001_00010011, 0, 0⟩ = .ok (.fcBuild 129) := rfl
theorem test_decode_fcSerialize :
    decode ⟨0b000000_1_0_00000000_00000000_00010100, 0, 0⟩ = .ok (.fcSerialize .line) := rfl
theorem test_decode_mcConfig :
    decode ⟨0b000000_0_0_00000000_00000000_00000001, 1000, 600⟩ = .ok (.mcConfig 1000 600) := rfl
theorem test_decode_mcEncodeBit :
    decode ⟨0b000000_0_1_00000000_00000000_00000010, 0, 0⟩ = .ok (.mcEncodeBit true) := rfl
theorem test_decode_mcDecodeEdge_up :
    decode ⟨0b000000_0_1_00000000_00000000_00000011, 7, 0⟩ = .ok (.mcDecodeEdge .up .channel 7) := rfl
theorem test_decode_mcDecodeEdge_down_fc :
    decode ⟨0b000000_1_0_00000000_00000000_00000011, 7, 0⟩ = .ok (.mcDecodeEdge .down .frame 7) := rfl
theorem test_decode_pbWrite :
    decode ⟨0b000000_0_0_10000000_00000001_00100000, 0, 0⟩ = .ok (.pbWrite 1 0x80) := rfl
theorem test_decode_pbRead :
    decode ⟨0b000000_0_0_00000000_11111110_00100001, 0, 0⟩ = .ok (.pbRead 254) := rfl
theorem test_decode_regRead :
    decode ⟨0b000000_0_0_00000000_00001011_00110000, 0, 0⟩ = .ok (.regRead 11) := rfl

/-- V-E1: unassigned codes, then a fixed bit that is 1. -/
theorem test_decode_refuses :
    decode ⟨0x00000000, 0, 0⟩ = .error .illegalOpcode ∧ decode ⟨0x000000FF, 0, 0⟩ = .error .illegalOpcode ∧
    decode ⟨0x02000010, 0, 0⟩ = .error .reservedField ∧ decode ⟨0x00000111, 0, 0⟩ = .error .reservedField ∧
    decode ⟨0x00010013, 0, 0⟩ = .error .reservedField := ⟨rfl, rfl, rfl, rfl, rfl⟩

/-- The bits of a command as spec/opcode_table.json numbers them: CMD, then OPA, then OPB (R47). -/
theorem test_decode_table_word :
    decodeTableWord 160 (0x00000001 + 1000 * 2 ^ 32 + 600 * 2 ^ 96) = some (.mcConfig 1000 600) := rfl

/-! ### A small state -/

/-- N = 1 with the constant of the spec's examples. -/
def p1 : Preamble := .n1 0xA5

/-- N = 4 with the constant of the spec's examples. -/
def p4 : Preamble := .n4 0xDEADBEEF

/-- A state with nothing blocked and nothing produced. -/
def mk (p : Preamble) (fc : Frame) (mlc : Mlc) (inputs : List Input) : State :=
  { preamble := p, fc := fc, mlc := mlc, blocked := none, inputs := inputs, outputs := [] }

/-- `mc.config 1000, 600`, then PREV, SYNC_V and LAST_TS as given. -/
def mc (prev syncV : Bool) (lastTs : DWord) : Mlc := ⟨1000, 600, prev, syncV, lastTs, true, false⟩

/-- The payload "TEST" in PBUF. -/
def pbTest : Memory := [(0, 0x54), (1, 0x45), (2, 0x53), (3, 0x54)]

/-- The frame of V-F1 and of the end of V-F2. -/
def fcTest : Frame := ⟨.done, 0xDEADBEEF, 4, 0xEEEA93B8, 0, pbTest⟩

/-- The frame of V-F15 and V-M18: N = 1, payload "B". -/
def fcB : Frame := ⟨.done, 0xA5, 1, 0x4AD0CF31, 0, [(0, 0x42)]⟩

/-- Frame, Manchester state and outputs after a command. -/
def after (i : Instr) (s : State) : Option (Frame × Mlc × List Output) :=
  (nextState? (exec i s)).map fun t => (t.fc, t.mlc, t.outputs)

/-! ### The frame codec -/

/-- V-F16: 0xD2 and the bit 1 match 0xA5, the top bit dropped. -/
theorem test_consume_truncates :
    after (.fcConsumeBit true) (mk p1 ⟨.preamble, 0xD2, 0, 0, 0, []⟩ .empty []) =
      some (⟨.size, 0xA5, 0, 0, 0, []⟩, .empty, [.response ⟨.ok, 0⟩]) := by decide

/-- V-F2, bit 104: the last checksum bit makes the frame DONE. -/
theorem test_consume_last_bit :
    after (.fcConsumeBit false) (mk p4 ⟨.checksum, 0xDEADBEEF, 4, 0x777549DC, 31, pbTest⟩ .empty []) =
      some (fcTest, .empty, [.response ⟨.ok, 1⟩]) := by decide

/-- V-F10: FC_RESET clears the frame, not the codec. -/
theorem test_reset : after .fcReset (mk p4 fcTest (mc true true 9) []) =
    some (Frame.empty, mc true true 9, [.response ⟨.ok, 0⟩]) := by decide

/-- V-F2: the received frame is valid. -/
theorem test_isValid : after .fcIsValid (mk p4 fcTest .empty []) =
    some (fcTest, .empty, [.response ⟨.ok, 1⟩]) := by decide +kernel

/-- V-F11: before DONE the answer is 0. -/
theorem test_isValid_before_done :
    (nextState? (exec .fcIsValid (mk p4 ⟨.data, 0xDEADBEEF, 4, 0, 0, []⟩ .empty []))).map (·.outputs) =
      some [.response ⟨.ok, 0⟩] := by decide +kernel

/-- V-F12, first row. -/
theorem test_build : after (.fcBuild 4) (mk p4 ⟨.preamble, 0, 0, 0, 0, pbTest⟩ .empty []) =
    some (fcTest, .empty, [.response ⟨.ok, 0⟩]) := by decide +kernel

/-- V-F12, third row: an empty frame is refused. -/
theorem test_build_empty : after (.fcBuild 0) (mk p4 fcTest .empty []) =
    some (fcTest, .empty, [.response ⟨.badArg, 0⟩]) := by decide

/-- V-F1: the 104 bits of DE AD BE EF 04 54 45 53 54 EE EA 93 B8. -/
theorem test_serialize_bits :
    (nextState? (exec (.fcSerialize .bits) (mk p4 fcTest .empty []))).map (fun t => Env.bitSink t.outputs) =
      some (msbFirst (0xDEADBEEF0454455354EEEA93B8 : BitVec 104) 104) := by decide +kernel

/-- V-F15: 193 events, 112 of them SLEEPs; PREV = 1 at the end; the frame as it was. -/
theorem test_serialize_line :
    (nextState? (exec (.fcSerialize .line) (mk p1 fcB (mc false false 0) (List.replicate 112 .sleepDone)))).map
        (fun t => (t.fc, t.mlc.prev, t.blocked, t.outputs.length, t.outputs.countP Output.isSleep)) =
      some (fcB, true, none, 193 + 1, 112) := by decide +kernel

/-- R61: two check values. -/
theorem test_crc32 : crc32 [0x42] = 0x4AD0CF31 ∧ crc32 [0x58, 0x45, 0x53, 0x54] = 0xA43C2C00 := by
  decide +kernel

/-! ### The Manchester codec -/

/-- V-M4: ORD_ERR is kept by MC_CONFIG, and everything else constructed anew. -/
theorem test_config : after (.mcConfig 1000 600) (mk p1 .empty ⟨5, 6, true, true, 7, true, true⟩ []) =
    some (Frame.empty, ⟨1000, 600, false, false, 0, true, true⟩, [.response ⟨.ok, 0⟩]) := by decide

/-- V-M4: E_BAD_ARG wins over E_CONFIG_INVALID. -/
theorem test_config_wide : after (.mcConfig 0x100000000 600) (mk p1 .empty (mc false true 1000) []) =
    some (Frame.empty, mc false true 1000, [.response ⟨.badArg, 0⟩]) := by decide

/-- V-M3: from PREV = 1 a 1 has its boundary SIG(0). -/
theorem test_encode : after (.mcEncodeBit true) (mk p1 .empty (mc true false 0) [.sleepDone, .sleepDone]) =
    some (Frame.empty, mc true false 0, [.sig false, .sleep, .sig true, .sleep, .response ⟨.ok, 0⟩]) := by
  decide

/-- V-M3: unconfigured. -/
theorem test_encode_unconfigured : after (.mcEncodeBit true) (mk p1 .empty .empty []) =
    some (Frame.empty, .empty, [.response ⟨.notConfigured, 0⟩]) := by decide

/-- V-M11, elapsed -5: floor, not truncation; ORD_ERR set, LAST_TS stale. -/
theorem test_decode_edge_negative :
    after (.mcDecodeEdge .up .channel 9995) (mk p1 .empty (mc false true 10000) []) =
      some (Frame.empty, ⟨1000, 600, false, false, 10000, true, true⟩, [.response ⟨.ok, 0x0C⟩]) := by
  decide +kernel

/-- V-M18: a bit routed to a DONE frame is ignored. -/
theorem test_decode_edge_done :
    after (.mcDecodeEdge .down .frame 1000) (mk p1 fcB (mc false true 0) []) =
      some (fcB, mc false true 1000, [.response ⟨.ok, 0x15⟩]) := by decide +kernel

/-- V-M1: the bits 1,1,0 from PREV = 0 with H = 1000, as SIG times and as line edges. -/
theorem test_timeline_V_M1 :
    Env.lineEdges false (Env.timeline 1000 0 (lineOutputs false [true, true, false])) =
      [(.up, 1000), (.down, 2000), (.up, 3000), (.down, 5000)] ∧
    Env.endTime 1000 0 (lineOutputs false [true, true, false]) = 6000 := by decide +kernel

/-- V-M20: the encoder's own edges for 0,1,0,0,1,1 on a line idling low. -/
theorem test_timeline_V_M20 :
    Env.lineEdges false (Env.timeline 1000 0 (lineOutputs false [false, true, false, false, true, true])) =
      [(.up, 0), (.down, 1000), (.up, 3000), (.down, 5000), (.up, 6000), (.down, 7000), (.up, 9000),
        (.down, 10000), (.up, 11000)] := by decide +kernel

/-! ### Host access -/

/-- V-H1. -/
theorem test_pbWrite : after (.pbWrite 254 0xFF) (mk p1 .empty .empty []) =
    some (⟨.preamble, 0, 0, 0, 0, [(254, 0xFF)]⟩, .empty, [.response ⟨.ok, 0⟩]) := by decide

/-- V-H1: a write of the byte an unlisted index reads as leaves the list without it. -/
theorem test_pbWrite_zero : after (.pbWrite 0 0) (mk p1 fcB .empty []) =
    some (⟨.done, 0xA5, 1, 0x4AD0CF31, 0, []⟩, .empty, [.response ⟨.ok, 0⟩]) := by decide

/-- V-H1. -/
theorem test_pbRead : after (.pbRead 3) (mk p4 fcTest .empty []) =
    some (fcTest, .empty, [.response ⟨.ok, 0x54⟩]) := by decide

/-- V-H1: index 255. -/
theorem test_pbRead_255 : after (.pbRead 255) (mk p4 fcTest .empty []) =
    some (fcTest, .empty, [.response ⟨.badArg, 0⟩]) := by decide

/-- V-H2: CSUM. -/
theorem test_regRead : after (.regRead 3) (mk p4 fcTest .empty []) =
    some (fcTest, .empty, [.response ⟨.ok, 0xEEEA93B8⟩]) := by decide

/-- V-M4: STATUS with ORD_ERR and CFG_OK. -/
theorem test_regRead_status :
    (nextState? (exec (.regRead 9) (mk p1 .empty ⟨1000, 600, false, false, 0, true, true⟩ []))).map (·.outputs) =
      some [.response ⟨.ok, 0x5⟩] := by decide

/-! ### The port and reset -/

/-- withFetchWord: the very next step runs the word (log entry 7). -/
theorem test_withFetchWord : nextState? (step (State.reset.withFetchWord 32 0x00540020)) =
    some { State.reset with
      fc := { Frame.empty with pbuf := [(0, 0x54)] }, outputs := [.response ⟨.ok, 0⟩] } := rfl

/-- R93, R97: RST reaches a blocked command past a command that waits at the port. -/
theorem test_reset_while_blocked :
    nextState? (step { mk p1 fcB (mc true false 0) [.command ⟨0x12, 0, 0⟩, .reset] with
      blocked := some [.sig true, .sleep], outputs := [.sleep] }) =
    some { mk p1 .empty .empty [.command ⟨0x12, 0, 0⟩] with outputs := [.sleep] } := rfl

/-! ### The assembler (R57, R58; the lines of programs P1, P4, V-H2 and R58) -/

theorem test_asm_write : assembleLine p4 "pb.write 1, 0x45  ; 'E'".toList = some [⟨0x00450120, 0, 0⟩] := by
  decide +kernel
theorem test_asm_decode :
    assembleLine p4 "mc.decode up, 5000, fc".toList = some [⟨0x03000003, 5000, 0⟩] := by decide +kernel
theorem test_asm_selector : assembleLine p4 "reg.read SIZE".toList = some [⟨0x00000230, 0, 0⟩] := by
  decide +kernel
theorem test_asm_load : (assembleLine p4 "pb.load 0, \"TEST\"".toList).map (·.map Command.cmd) =
    some [0x00540020, 0x00450120, 0x00530220, 0x00540320] := by decide +kernel
theorem test_asm_default :
    assembleLine p4 "mc.config_default 1000".toList = some [⟨0x00000001, 1000, 600⟩] := by decide +kernel
theorem test_asm_blank : assembleLine p4 "  ; only a comment".toList = some [] := by decide +kernel
/-- A line without a byte list is none (log entry 9). -/
theorem test_asm_load_no_bytes : assembleLine p4 "pb.load 3".toList = none := by decide +kernel
theorem test_asm_unknown : assembleLine p4 "fc.reset 1".toList = none := by decide +kernel

/-- D11: an edge source whose timestamps wrap breaks its duty; one that reaches the last timestamp does not. -/
theorem test_edges_wrap :
    ¬ Env.EdgesInOrder [(.up, 2 ^ 64 - 1), (.down, 2 ^ 64)] ∧
    Env.EdgesInOrder [(.up, 2 ^ 64 - 2), (.down, 2 ^ 64 - 1), (.up, 2 ^ 64 - 1)] := by decide

/-! ### Witnesses: for each statement with hypotheses, states and operands that meet them, clause by clause -/

theorem witness_DecoderTakesItsChecksInOrder :
    (∀ row ∈ maskTable, row.1 ≠ Command.opc ⟨0x31, 0, 0⟩) ∧
    (∃ row ∈ maskTable, row.1 = Command.opc ⟨0x04000010, 0, 0⟩ ∧
      (0x04000010 : Word) &&& row.2 ≠ (Command.opc ⟨0x04000010, 0, 0⟩).setWidth 32) ∧
    ∃ row ∈ maskTable, row.1 = Command.opc ⟨0x03000003, 0, 0⟩ ∧
      (0x03000003 : Word) &&& row.2 = (Command.opc ⟨0x03000003, 0, 0⟩).setWidth 32 := by
  refine ⟨fun row hr => ?_, ⟨(0x10, 0xFEFFFFFF), by decide, by decide, by decide⟩,
    ⟨(0x03, 0xFCFFFFFF), by decide, by decide, by decide⟩⟩
  fin_cases hr <;> decide

theorem witness_AcceptedWordsEncodeBack :
    decode ⟨0x00000001, 1000, 600⟩ = .ok (.mcConfig 1000 600) ∧ Command.opc ⟨0x00000001, 1000, 600⟩ = 0x01 ∧
    decode ⟨0x00000003, 5, 0⟩ = .ok (.mcDecodeEdge .down .channel 5) ∧
    Command.opc ⟨0x00000003, 5, 0⟩ = 0x03 := ⟨rfl, rfl, rfl, rfl⟩

theorem witness_UnusedOperandWordsAreIgnored :
    Command.opc ⟨0x11, 0, 0⟩ ≠ 0x01 ∧ Command.opc ⟨0x11, 0, 0⟩ ≠ 0x03 ∧ Command.opc ⟨0x03, 0, 0⟩ = 0x03 := by
  decide

theorem witness_EncodedWordsFollowTheAssemblersTable :
    (∀ h s, Instr.pbRead 254 ≠ .mcConfig h s) ∧ (∀ d r ts, Instr.pbRead 254 ≠ .mcDecodeEdge d r ts) ∧
    ∀ h s, Instr.mcDecodeEdge .up .frame 1 ≠ .mcConfig h s := by
  refine ⟨?_, ?_, ?_⟩ <;> simp

theorem witness_PseudoInstructionsExpand :
    (0 : Byte).toNat + (List.replicate 256 (0 : Byte)).length ≤ 256 ∧
    (255 : Byte).toNat + [(7 : Byte)].length ≤ 256 ∧ 0 < [(7 : Byte)].length :=
  ⟨by rw [List.length_replicate]; decide, by decide, by decide⟩

/-- A state whose port holds a command. -/
def port (c : Command) : State := mk p1 .empty .empty [.command c]

theorem witness_StepRunsTheDecodedCommand :
    (port ⟨0x11, 0, 0⟩).blocked = none ∧ (port ⟨0x11, 0, 0⟩).inputs = [.command ⟨0x11, 0, 0⟩] ∧
    decode ⟨0x11, 0, 0⟩ = .ok .fcReset := ⟨rfl, rfl, rfl⟩

theorem witness_RejectedWordsAreAnswered :
    (port ⟨0x15, 0, 0⟩).blocked = none ∧ (port ⟨0x15, 0, 0⟩).inputs = [.command ⟨0x15, 0, 0⟩] ∧
    decode ⟨0x15, 0, 0⟩ = .error .illegalOpcode ∧ decode ⟨0x111, 0, 0⟩ = .error .reservedField :=
  ⟨rfl, rfl, rfl, rfl⟩

/-- MC_ENCODE_BIT blocked after its first SLEEP. -/
def encoding (inputs : List Input) : State :=
  { mk p1 fcB (mc true false 0) inputs with blocked := some [.sig true, .sleep], outputs := [.sleep] }

theorem witness_HardwareResetPutsEveryRegisterAtItsResetValue :
    ((mk p1 fcB (mc true true 9) [.reset]).blocked = none ∧
      (mk p1 fcB (mc true true 9) [.reset]).inputs = [.reset]) ∧
    (encoding [.command ⟨0x12, 0, 0⟩, .reset]).blocked ≠ none ∧
    takeSignal (encoding [.command ⟨0x12, 0, 0⟩, .reset]).inputs =
      some (.reset, [.command ⟨0x12, 0, 0⟩]) := by decide

theorem witness_ResetStateWaitsForItsFirstCommand :
    (mk p1 fcB (mc true true 9) []).blocked = none ∧ (mk p1 fcB (mc true true 9) []).inputs = [] := ⟨rfl, rfl⟩

theorem witness_EveryStepKeepsTheInvariant :
    ∃ s t : State, s.Inv ∧ step s = .next t ∧ t.fc.stage = .checksum := by
  refine ⟨mk p1 ⟨.data, 0xA5, 255, 0, 2039, []⟩ .empty [.command ⟨0x01000010, 0, 0⟩], _,
    ⟨⟨Memory.wf_nil, by decide, by decide, fun _ => rfl, by decide, by decide, by decide, by decide,
      by decide⟩, ⟨by decide, by decide, by decide⟩, by decide⟩, rfl, by decide⟩

theorem witness_StepStopsOnlyOnAStrayCompletion :
    State.reset.TimerKept ∧ ¬ State.TimerKept { State.reset with inputs := [.sleepDone] } := by
  constructor
  · exact fun h => nomatch h
  · exact fun h => h rfl

theorem witness_ErrorsWriteNothing :
    ∃ t, (port ⟨0xFF21, 0, 0⟩).blocked = none ∧
      (port ⟨0xFF21, 0, 0⟩).inputs = [.command ⟨0xFF21, 0, 0⟩] ∧ step (port ⟨0xFF21, 0, 0⟩) = .next t ∧
      t.outputs.getLast? = some (.response ⟨.badArg, 0⟩) ∧ Status.badArg ≠ .ok :=
  ⟨_, rfl, rfl, rfl, rfl, by decide⟩

theorem witness_LowestApplicableErrorIsTheResponse :
    ErrorApplies ⟨0x00, 0, 0⟩ (port ⟨0x00, 0, 0⟩) .illegalOpcode ∧
    ErrorApplies ⟨0x111, 0, 0⟩ (port ⟨0x111, 0, 0⟩) .reservedField ∧
    ErrorApplies ⟨0x01, 0x100000000, 0⟩ (port ⟨0x01, 0x100000000, 0⟩) .badArg ∧
    ErrorApplies ⟨0x01, 0x100000000, 0⟩ (port ⟨0x01, 0x100000000, 0⟩) .configInvalid ∧
    ErrorApplies ⟨0x02000014, 0, 0⟩ (port ⟨0x02000014, 0, 0⟩) .notConfigured ∧
    ErrorApplies ⟨0x02000014, 0, 0⟩ (port ⟨0x02000014, 0, 0⟩) .badState ∧
    ErrorApplies ⟨0x14, 0, 0⟩ (port ⟨0x14, 0, 0⟩) .badState ∧
    (∀ e, e.code.toNat < Status.notConfigured.code.toNat →
      ¬ ErrorApplies ⟨0x02000014, 0, 0⟩ (port ⟨0x02000014, 0, 0⟩) e) ∧
    (∀ e, ¬ ErrorApplies ⟨0x11, 0, 0⟩ (port ⟨0x11, 0, 0⟩) e) := by
  refine ⟨fun row hr => ?_, ⟨(0x11, 0xFFFFFFFF), by decide, by decide, by decide⟩,
    .inl ⟨rfl, .inl (by decide)⟩, ⟨rfl, by decide⟩, ⟨.inr (.inr ⟨rfl, rfl⟩), rfl⟩, ⟨rfl, by decide⟩,
    ⟨rfl, by decide⟩, fun e he => ?_, fun e => ?_⟩
  · fin_cases hr <;> decide
  · cases e with
    | illegalOpcode => exact fun h => h (0x14, 0xFDFFFFFF) (by decide) rfl
    | reservedField =>
      rintro ⟨row, hr, h1, h2⟩
      fin_cases hr <;> first | exact absurd h1 (by decide) | exact h2 rfl
    | badArg => unfold ErrorApplies; simp [Command.opc]
    | ok => exact id
    | notConfigured => exact absurd he (by decide)
    | badState => exact absurd he (by decide)
    | configInvalid => exact absurd he (by decide)
  · cases e with
    | illegalOpcode => exact fun h => h (0x11, 0xFFFFFFFF) (by decide) rfl
    | reservedField =>
      rintro ⟨row, hr, h1, h2⟩
      fin_cases hr <;> first | exact absurd h1 (by decide) | exact h2 rfl
    | _ => unfold ErrorApplies; simp [Command.opc]

theorem witness_OperandErrorsAreAnswered :
    (Instr.mcConfig 0x100000000 0).operandError = some .badArg ∧
    (Instr.mcConfig 0 0xFFFFFFFF).operandError = some .configInvalid ∧
    (Instr.fcBuild 0).operandError = some .badArg ∧ (Instr.pbWrite 255 1).operandError = some .badArg ∧
    (Instr.pbRead 255).operandError = some .badArg ∧ (Instr.regRead 12).operandError = some .badArg := by
  decide

theorem witness_OneResponseAfterTheEvents :
    (∃ t, step (port ⟨0x11, 0, 0⟩) = .next t ∧ t.blocked = none) ∧
    ∃ t, step (mk p1 .empty (mc true false 0) [.command ⟨0x01000002, 0, 0⟩]) = .next t ∧ t.blocked ≠ none :=
  ⟨⟨_, rfl, rfl⟩, ⟨_, rfl, by decide⟩⟩

theorem witness_ParametersAreFixedAndOutputsStay :
    ∃ t, step (encoding [.reset]) = .next t ∧ (encoding [.reset]).outputs ≠ [] := ⟨_, rfl, by decide⟩

theorem witness_ConsumeBitFollowsTheStages :
    (Memory.wf [] ∧ (⟨.preamble, 0x52, 0, 0, 0, []⟩ : Frame).overrun = false) ∧
    ((⟨.size, 0xA5, 0, 0, 6, []⟩ : Frame).overrun = false ∧ (6 : BitVec 11).toNat + 1 ≠ 8) ∧
    ((⟨.size, 0xA5, 0, 0, 7, []⟩ : Frame).overrun = false ∧ (7 : BitVec 11).toNat + 1 = 8 ∧
      (2 * (0 : Byte).toNat + false.toNat) % 256 = 0 ∧ (2 * (0x7F : Byte).toNat + true.toNat) % 256 ≠ 0) ∧
    ((⟨.data, 0xA5, 255, 0, 2039, []⟩ : Frame).overrun = false ∧
      (2039 : BitVec 11).toNat + 1 = 8 * (255 : Byte).toNat ∧
      (2038 : BitVec 11).toNat + 1 ≠ 8 * (255 : Byte).toNat) ∧
    ((⟨.checksum, 0xA5, 1, 0, 31, []⟩ : Frame).overrun = false ∧ (31 : BitVec 11).toNat + 1 = 32 ∧
      (30 : BitVec 11).toNat + 1 ≠ 32) ∧
    fcB.overrun = false := by decide

theorem witness_ConsumeBitCommandAnswersIsDone :
    Frame.empty.overrun = false ∧ (⟨.size, 0, 0, 0, 2046, []⟩ : Frame).overrun = false ∧
    (⟨.size, 0, 0, 0, 2047, []⟩ : Frame).overrun = true := by decide

theorem witness_StageChangesInThreeWays :
    (∃ t, step (port ⟨0x00000113, 0, 0⟩) = .next t ∧ t.fc.stage ≠ (port ⟨0x00000113, 0, 0⟩).fc.stage) ∧
    ∃ t, step (mk p1 fcB .empty [.reset]) = .next t ∧ t.fc.stage ≠ fcB.stage :=
  ⟨⟨_, rfl, by decide⟩, ⟨_, rfl, by decide⟩⟩

theorem witness_FrameResetClearsTheFrameOnly :
    Command.opc ⟨0x00000011, 0, 0⟩ = 0x11 ∧ Command.opc ⟨0x04000011, 0, 0⟩ = 0x11 ∧
    (0x04000011 : Word) ≠ 0x00000011 := by decide

theorem witness_IsValidComparesThePayloadsChecksum :
    Command.opc ⟨0x00000012, 0, 0⟩ = 0x12 ∧ Command.opc ⟨0x01000012, 0, 0⟩ = 0x12 ∧
    (0x01000012 : Word) ≠ 0x00000012 ∧
    ∀ i < fcB.size.toNat, Memory.read [(0, 0x42), (1, 7)] i = fcB.pbuf.read i := by decide

theorem witness_BuildMakesADoneFrame :
    Command.opc ⟨0x0000FF13, 0, 0⟩ = 0x13 ∧ (0x0000FF13 : Word) &&& 0xFFFF00FF = 0x00000013 ∧
    Command.opc ⟨0x00010013, 0, 0⟩ = 0x13 ∧ (0x00010013 : Word) &&& 0xFFFF00FF ≠ 0x00000013 ∧
    (1 : Byte) ≠ 0 ∧ (255 : Byte) ≠ 0 := by decide

theorem witness_WireStreamLength : 1 ≤ fcB.size.toNat ∧ 1 ≤ (255 : Byte).toNat := by decide

theorem witness_SerializeToBitsEmitsTheWireStream :
    (mk p1 fcB .empty []).fc.stage = .done ∧ (mk p1 .empty .empty []).fc.stage ≠ .done := by decide

theorem witness_SerializeThroughTheEncoderCompletes :
    (mc false false 0).cfgOk = true ∧ fcB.stage = .done ∧
    Env.completions (2 * (8 * p1.bytes + 40 + 8 * fcB.size.toNat)) (List.replicate 113 .sleepDone) =
      some [.sleepDone] := by decide +kernel

theorem witness_EncodedFrameResumesWhereItStopped :
    (mc false false 0).cfgOk = true ∧ fcB.stage = .done ∧
    0 < 2 * (8 * p1.bytes + 40 + 8 * fcB.size.toNat) ∧
    111 < 2 * (8 * p1.bytes + 40 + 8 * fcB.size.toNat) ∧
    0 + 111 < 2 * (8 * p1.bytes + 40 + 8 * fcB.size.toNat) ∧
    111 + 1 = 2 * (8 * p1.bytes + 40 + 8 * fcB.size.toNat) ∧
    Env.completions 0 [.command ⟨0x11, 0, 0⟩] = some [.command ⟨0x11, 0, 0⟩] ∧
    takeSignal [.command ⟨0x11, 0, 0⟩] = none ∧
    Env.completions 0 [.reset] = some [.reset] ∧ takeSignal [.reset] = some (.reset, []) ∧
    Env.completions 111 (List.replicate 111 .sleepDone) = some [] ∧ takeSignal [] = none ∧
    Env.completions 1 [.sleepDone] = some [] ∧ takeSignal [.sleepDone] = some (.sleepDone, []) ∧
    NoCompletion [.command ⟨0x11, 0, 0⟩] ∧ NoCompletion [.reset] ∧ NoCompletion [] :=
  ⟨by decide, by decide, by decide +kernel, by decide +kernel, by decide +kernel, by decide +kernel,
    by decide, by decide, by decide, by decide, by decide +kernel, by decide, by decide, by decide,
    fun _ h => (nomatch h), fun _ h => (nomatch h), fun _ h => (nomatch h)⟩

theorem witness_BitLevelRoundTrip :
    1 ≤ [(0x42 : Byte)].length ∧ (List.replicate 255 (0x42 : Byte)).length ≤ 255 ∧ p1.const ≠ 0 ∧
    (mk p1 fcB .empty []).fc.pbuf.wf ∧ (mk p1 fcB .empty []).blocked = none ∧
    (mk p1 .empty .empty []).blocked = none ∧
    (mk p1 .empty .empty []).preamble = (mk p1 fcB .empty []).preamble ∧
    (mk p1 .empty .empty []).fc = ⟨.preamble, 0, 0, 0, 0, []⟩ := by decide +kernel

theorem witness_CorruptedPayloadByteIsDetected :
    fcTest.pbuf.wf ∧ fcTest.isValid = true ∧ (3 : Byte).toNat < fcTest.size.toNat ∧
    (0x58 : Byte) ≠ fcTest.pbuf.read (3 : Byte).toNat := by decide +kernel

theorem witness_DoneFrameIgnoresBits :
    (mk p1 fcB .empty []).fc.stage = .done ∧ (mk p1 fcB .empty []).blocked = none := ⟨rfl, rfl⟩

/-- V-F16 and V-F2's search with N = 1: one noise bit and the constant. -/
theorem witness_PreambleMatchesOnItsLastBits :
    Frame.empty.stage = .preamble ∧ (msbFirst (0xA5 : Byte) 8).length = 8 * p1.bytes ∧
    (∀ n < ([true] ++ msbFirst (0xA5 : Byte) 8).length,
      (Frame.empty.consumeBits p1 (([true] ++ msbFirst (0xA5 : Byte) 8).take n)).stage = .preamble) ∧
    (∀ n < ([true] ++ msbFirst (0xA4 : Byte) 8).length,
      (Frame.empty.consumeBits p1 (([true] ++ msbFirst (0xA4 : Byte) 8).take n)).stage = .preamble) := by
  decide +kernel

theorem witness_SizeByteOpensOrRejectsTheFrame :
    (mk p1 ⟨.size, 0xA5, 0, 0, 0, []⟩ .empty []).fc.stage = .size ∧
    (mk p1 ⟨.size, 0xA5, 0, 0, 0, []⟩ .empty []).fc.bitpos = 0 ∧
    (mk p1 ⟨.size, 0xA5, 0, 0, 0, []⟩ .empty []).blocked = none ∧ (255 : Byte) ≠ 0 := by decide

theorem witness_ConfigConstructsTheCodec :
    Command.opc ⟨0x00000001, 1000, 600⟩ = 0x01 ∧ Command.opc ⟨0x00000101, 1000, 600⟩ = 0x01 ∧
    (0x00000101 : Word) ≠ 0x00000001 ∧
    ((1 : DWord).toNat < 2 ^ 32 ∧ (0xFFFFFFFF : DWord).toNat < 2 ^ 32 ∧ (1 : DWord) ≠ 0) ∧
    2 ^ 32 ≤ (0x100000000 : DWord).toNat := by decide

theorem witness_EncodeBitEmitsItsBitPeriod :
    (mc true false 0).cfgOk = true ∧ Env.completions 2 [.sleepDone, .command ⟨0x11, 0, 0⟩, .sleepDone] =
      some [.command ⟨0x11, 0, 0⟩] := by decide

theorem witness_BlockedEncoderWaitsForTheTimer :
    (mc true false 0).cfgOk = true ∧
    (Env.completions 0 [.command ⟨0x11, 0, 0⟩] = some [.command ⟨0x11, 0, 0⟩] ∧
      takeSignal [.command ⟨0x11, 0, 0⟩] = none) ∧
    (Env.completions 0 [.reset] = some [.reset] ∧ takeSignal [.reset] = some (.reset, [])) ∧
    (Env.completions 1 [.sleepDone, .reset] = some [.reset] ∧ 0 + 1 < 2) ∧
    (Env.completions 1 [.sleepDone] = some [] ∧ takeSignal [.sleepDone] = some (.sleepDone, []) ∧ 1 + 1 = 2) ∧
    (Env.completions 2 [.sleepDone, .sleepDone] = some [] ∧ 0 + 2 = 2) ∧
    NoCompletion [.command ⟨0x11, 0, 0⟩] ∧ NoCompletion [.reset] ∧ NoCompletion [] :=
  ⟨by decide, by decide, by decide, by decide, by decide, by decide,
    fun _ h => (nomatch h), fun _ h => (nomatch h), fun _ h => (nomatch h)⟩

/-- MC_ENCODE_BIT with exactly one completion there waits at its second SLEEP (R69). -/
theorem test_encode_second_sleep :
    (nextState? (exec (.mcEncodeBit true) (mk p1 .empty (mc true false 0) [.sleepDone]))).map
        (fun t => (t.outputs, t.blocked)) =
      some ([.sig false, .sleep, .sig true, .sleep], some []) := by decide

theorem witness_PortIsHeldWhileBlocked :
    (encoding [.command ⟨0x11, 0, 0⟩]).blocked ≠ none ∧
    takeSignal (encoding [.command ⟨0x11, 0, 0⟩]).inputs = none ∧
    ∃ t, step (encoding [.command ⟨0x11, 0, 0⟩, .sleepDone]) = .next t := ⟨by decide, rfl, _, rfl⟩

theorem witness_ClassifierBands :
    (mc false true 0).halfPeriod ≠ 0 ∧
    5 * (mc false true 0).sensitivity.toNat = 3 * (mc false true 0).halfPeriod.toNat ∧
    (mc false true 0).halfPeriod = 1000 ∧ (mc false true 0).sensitivity = 600 := by decide

theorem witness_UnsynchronizedEdgeGivesItsBit :
    (mc false false 9).cfgOk = true ∧ (mc false false 9).syncV = false ∧ Frame.empty.overrun = false := by
  decide

theorem witness_SynchronizedEdgeFollowsTheClassifier :
    (mc false true 10000).cfgOk = true ∧ (mc false true 10000).syncV = true ∧
    (mc false true 10000).halfPeriod ≠ 0 ∧ Frame.empty.overrun = false ∧
    (((10599 : DWord).toNat : Int) - (mc false true 10000).lastTs.toNat < 600 ∧
      (600 : Int) + 3 * 1000 ≤ ((13600 : DWord).toNat : Int) - (mc false true 10000).lastTs.toNat) ∧
    ((600 : Int) + 1000 ≤ ((11600 : DWord).toNat : Int) - (mc false true 10000).lastTs.toNat ∧
      ((12599 : DWord).toNat : Int) - (mc false true 10000).lastTs.toNat < 600 + 2 * 1000) ∧
    ((600 : Int) ≤ ((10600 : DWord).toNat : Int) - (mc false true 10000).lastTs.toNat ∧
      ((11599 : DWord).toNat : Int) - (mc false true 10000).lastTs.toNat < 600 + 1000) ∧
    ((600 : Int) + 2 * 1000 ≤ ((12600 : DWord).toNat : Int) - (mc false true 10000).lastTs.toNat ∧
      ((13599 : DWord).toNat : Int) - (mc false true 10000).lastTs.toNat < 600 + 3 * 1000) ∧
    ((9995 : DWord).toNat : Int) - (mc false true 10000).lastTs.toNat < 0 := by decide

theorem witness_UnconfiguredCodecRefuses :
    (mk p1 .empty .empty []).mlc.cfgOk = false ∧
    ∃ t, exec (.mcConfig 1000 600) (mk p1 .empty .empty []) = .next t ∧
      t.mlc.cfgOk ≠ (mk p1 .empty .empty []).mlc.cfgOk := ⟨rfl, _, rfl, by decide⟩

theorem witness_OrderErrorIsStickyUntilHardwareReset :
    (∃ t, exec (.mcDecodeEdge .down .channel 4000) (mk p1 .empty (mc false true 5000) []) = .next t ∧
      t.mlc.ordErr = true) ∧
    ∃ t, step (mk p1 .empty ⟨1000, 600, false, false, 0, true, true⟩ [.reset]) = .next t ∧
      (mk p1 .empty ⟨1000, 600, false, false, 0, true, true⟩ [.reset]).mlc.ordErr = true ∧
      t.mlc.ordErr = false := ⟨⟨_, rfl, by decide +kernel⟩, ⟨_, rfl, rfl, rfl⟩⟩

theorem witness_EncodedEdgesAreMisread :
    (mc false true 1000).halfPeriod.toNat = 1000 ∧ (1000 : Nat) ≠ 0 ∧
    0 < (mc false true 1000).sensitivity.toNat ∧ (mc false true 1000).sensitivity.toNat ≤ 1000 ∧
    (mc false true 1000).syncV = true ∧ (mc false true 1000).lastTs.toNat = 0 + 1000 ∧
    0 + 3 * 1000 < 2 ^ 64 ∧ true ≠ false := by decide

theorem witness_PayloadWriteStoresOneByte :
    Command.opc ⟨0x00FFFE20, 0, 0⟩ = 0x20 ∧ (0x00FFFE20 : Word) &&& 0xFF0000FF = 0x00000020 ∧
    Command.opc ⟨0x01000020, 0, 0⟩ = 0x20 ∧ (0x01000020 : Word) &&& 0xFF0000FF ≠ 0x00000020 ∧
    fcB.pbuf.wf ∧ (254 : Byte) ≠ 255 := by decide

theorem witness_PayloadReadReturnsTheByte :
    Command.opc ⟨0x0000FE21, 0, 0⟩ = 0x21 ∧ (0x0000FE21 : Word) &&& 0xFFFF00FF = 0x00000021 ∧
    Command.opc ⟨0x00010021, 0, 0⟩ = 0x21 ∧ (0x00010021 : Word) &&& 0xFFFF00FF ≠ 0x00000021 ∧
    (254 : Byte) ≠ 255 := by decide

theorem witness_RegisterReadFollowsTheSelectorMap :
    Command.opc ⟨0x00000B30, 0, 0⟩ = 0x30 ∧ (0x00000B30 : Word) &&& 0xFFFF00FF = 0x00000030 ∧
    Command.opc ⟨0x00010030, 0, 0⟩ = 0x30 ∧ (0x00010030 : Word) &&& 0xFFFF00FF ≠ 0x00000030 ∧
    (0 : Byte).toNat < 12 ∧ (11 : Byte).toNat < 12 ∧ 12 ≤ (12 : Byte).toNat ∧ 12 ≤ (255 : Byte).toNat := by
  decide

theorem witness_QueriesHaveNoSideEffects :
    (∃ idx, Instr.pbRead 255 = .pbRead idx) ∧ (∃ sel, Instr.regRead 9 = .regRead sel) ∧
    Instr.fcIsValid = .fcIsValid := ⟨⟨_, rfl⟩, ⟨_, rfl⟩, rfl⟩

theorem witness_EventsComeFromTheirCommands :
    (∃ t, exec (.mcDecodeEdge .up .channel 0) (mk p1 .empty (mc false false 0) []) = .next t) ∧
    ∃ t, exec (.mcEncodeBit true) (mk p1 .empty (mc true false 0) []) = .next t := ⟨⟨_, rfl⟩, ⟨_, rfl⟩⟩

theorem witness_RegistersAreWrittenByTheirNamedCommands :
    (∃ t, exec (.fcBuild 1) (mk p1 .empty .empty []) = .next t ∧ t.fc.stage ≠ Frame.empty.stage) ∧
    (∃ t, exec (.pbWrite 0 1) (mk p1 .empty .empty []) = .next t ∧ t.fc.pbuf ≠ Frame.empty.pbuf) ∧
    (∃ t, exec (.mcConfig 1 0) (mk p1 .empty .empty []) = .next t ∧
      t.mlc.halfPeriod ≠ Mlc.empty.halfPeriod) ∧
    (∃ t, exec (.mcEncodeBit true) (mk p1 .empty (mc false false 0) []) = .next t ∧ t.mlc.prev ≠ false) ∧
    (∃ t, exec (.mcDecodeEdge .up .frame 0) (mk p1 .empty (mc false false 0) []) = .next t ∧
      t.mlc.syncV ≠ false) ∧
    ∃ t, exec (.mcDecodeEdge .up .frame 0) (mk p1 .empty (mc false true 9) []) = .next t ∧
      t.mlc.ordErr ≠ false :=
  ⟨⟨_, rfl, by decide⟩, ⟨_, rfl, by decide⟩, ⟨_, rfl, by decide⟩, ⟨_, rfl, by decide⟩,
    ⟨_, rfl, by decide +kernel⟩, ⟨_, rfl, by decide +kernel⟩⟩

theorem witness_InstancesShareNothing :
    (0 : Nat) ≠ 1 ∧ ∃ t next, [State.reset, port ⟨0x11, 0, 0⟩][1]? = some (port ⟨0x11, 0, 0⟩) ∧
      step (port ⟨0x11, 0, 0⟩) = .next t ∧
      Env.stepInstance 1 [State.reset, port ⟨0x11, 0, 0⟩] = some next ∧
      next ≠ [State.reset, port ⟨0x11, 0, 0⟩] :=
  ⟨by decide, _, _, rfl, rfl, rfl, fun h => by
    have := congrArg (fun l => l.map fun s => s.outputs.length) h
    revert this; decide⟩

end Sys2Proof.Machine.Tests
end

/-! Obligations of the scope family: what a step does with a command, RST and a blocked encoder command (O8, O10,
O19, O40, O41). -/

namespace Sys2Proof.Machine

/-! ### One step, case by case -/

section StepRules

variable {s t : State} {c : Command} {rest : List Input} {ops : List LineOp}

/-- A word the decoder accepts is performed as its command (R12). -/
theorem runCommand_of_decode {i : Instr} (hd : decode c = .ok i) : runCommand c s = exec i s := by
  rw [runCommand, hd]

/-- RST between commands (R93). -/
theorem step_reset_of_idle (hb : s.blocked = none) (hi : s.inputs = .reset :: rest) :
    step s = .next (State.hardwareReset { s with inputs := rest }) := by
  rw [step, State.fetch, hb, hi]

/-- RST while a command is blocked (R93, R97). -/
theorem step_reset_of_blocked (hb : s.blocked = some ops)
    (hi : takeSignal s.inputs = some (.reset, rest)) :
    step s = .next (State.hardwareReset { s with inputs := rest }) := by
  rw [step, State.fetch, hb]
  simp only [hi]

/-- A blocked command waits while no signal is there (U11). -/
theorem step_wait_of_blocked (hb : s.blocked = some ops) (hi : takeSignal s.inputs = none) :
    step s = .next s := by
  rw [step, State.fetch, hb]
  simp only [hi]

/-- The awaited completion lets a blocked command go on with the rest of its list (R32, R86). -/
theorem step_resume (hb : s.blocked = some ops) (hi : takeSignal s.inputs = some (.sleepDone, rest)) :
    step s = .next (runLine ops { s with inputs := rest }) := by
  rw [step, State.fetch, hb]
  simp only [hi]

end StepRules

/-- Settles O8, by the rule for a command at the port. -/
theorem stepRunsTheDecodedCommand : Obligations.StepRunsTheDecodedCommand := by
  intro s c rest i hb hi hd
  rw [step_command hb hi, runCommand_of_decode hd]

/-- Settles O10: in both cases the step is the hardware reset, whose fields are the reset values. -/
theorem hardwareResetPutsEveryRegisterAtItsResetValue :
    Obligations.HardwareResetPutsEveryRegisterAtItsResetValue := by
  intro s rest h
  have hstep : step s = .next (State.hardwareReset { s with inputs := rest }) := by
    obtain ⟨hb, hi⟩ | ⟨hb, hi⟩ := h
    · exact step_reset_of_idle hb hi
    · obtain ⟨ops, hb⟩ := Option.ne_none_iff_exists'.1 hb
      exact step_reset_of_blocked hb hi
  exact ⟨_, hstep, by simp [Frame.empty, Mlc.empty]⟩

/-! ### What no step undoes -/

section Monotone

variable {s t : State}

/-- A command takes back no output (R43). -/
theorem Summary.outputs_prefix (h : Summary s t) : s.outputs <+: t.outputs := by
  obtain ⟨events, -, ⟨-, r, ho, -⟩ | ⟨-, -, ho⟩⟩ := h.outputs <;> rw [ho]
  · exact (List.prefix_append _ _).trans (List.prefix_append _ _)
  · exact List.prefix_append _ _

/-- A rejected word, too, does only what every command may do. -/
theorem runCommand_summary {c : Command} (h : runCommand c s = .next t) : Summary s t := by
  obtain ⟨e, -, ht⟩ | ⟨i, -, hi⟩ := runCommand_cases h
  · exact .raise ht
  · exact exec_summary hi

end Monotone

/-- Settles O19: a step waits, resets, or runs a command or the rest of one, and those keep to `Summary`. -/
theorem parametersAreFixedAndOutputsStay : Obligations.ParametersAreFixedAndOutputsStay := by
  intro s t h
  obtain ⟨-, rfl⟩ | ⟨c, rest, -, -, hc⟩ | ⟨ops, rest, -, -, ht⟩ | ⟨rest, -, -, rfl⟩ := step_cases h
  · exact ⟨rfl, List.prefix_rfl⟩
  · have hs := runCommand_summary hc
    exact ⟨hs.preamble, hs.outputs_prefix⟩
  · have hs := Summary.line ht
    exact ⟨hs.preamble, hs.outputs_prefix⟩
  · exact ⟨rfl, List.prefix_rfl⟩

/-! ### An encoder command that waits for the timer -/

/-- What an encoder command over `bits` makes of s when the inputs are `is` (R69). -/
def State.runEncoder (s : State) (bits : List Bool) (is : List Input) : State :=
  runLine (encodeStreamOps s.mlc.prev bits) { s with inputs := is }

/-- MC_ENCODE_BIT is the encoder over its one bit (R70). -/
theorem exec_mcEncodeBit_eq {s : State} (hc : s.mlc.cfgOk = true) (b : Bool) (is : List Input) :
    exec (.mcEncodeBit b) { s with inputs := is } = .next (s.runEncoder [b] is) := by
  rw [exec, execMcEncodeBit, if_neg (by simp [hc]), State.runEncoder, encodeBitOps_eq]

/-- FC_SERIALIZE with sink 1 is, in DONE, the encoder over the wire stream (R66). -/
theorem exec_fcSerialize_line_eq {s : State} (hc : s.mlc.cfgOk = true) (hd : s.fc.stage = .done)
    (is : List Input) :
    exec (.fcSerialize .line) { s with inputs := is } =
      .next (s.runEncoder (s.fc.wireStream s.preamble) is) := by
  rw [exec, execFcSerialize, if_neg (by simp [hc]), if_neg (by simp [Frame.isDone, hd]),
    State.runEncoder]

/-- A completion that is counted is there to be taken (R86). -/
theorem takeSignal_of_completions {j : Nat} {is rest : List Input} (hj : 1 ≤ j)
    (h : Env.completions j is = some rest) : ∃ r, takeSignal is = some (.sleepDone, r) := by
  obtain ⟨j, rfl⟩ := Nat.exists_eq_add_of_le' hj
  rw [Env.completions] at h
  split at h
  · next r hr => exact ⟨r, hr⟩
  · cases h

/-- k completions that are there, then j that come, are k + j (R86). -/
theorem completions_replicate_append {k j : Nat} {is rest : List Input}
    (h : Env.completions j is = some rest) :
    Env.completions (k + j) (List.replicate k .sleepDone ++ is) = some rest := by
  rw [completions_add, completions_replicate, Option.bind_some, h]

section Encoder

variable {s t : State} {bits : List Bool} {k : Nat} {is₀ rest : List Input}

/-- With all its requests completed an encoder command ends in its response (R69, R86). -/
theorem State.runEncoder_complete (h : Env.completions (2 * bits.length) is₀ = some rest) :
    s.runEncoder bits is₀ = { s with
      mlc := { s.mlc with prev := bits.getLastD s.mlc.prev }, blocked := none, inputs := rest
      outputs := s.outputs ++ lineOutputs s.mlc.prev bits ++ [.response ⟨.ok, 0⟩] } := by
  rw [← opsSleeps_encodeStream s.mlc.prev] at h
  rw [State.runEncoder, runLine_complete _ _ _ h, opsPrev_encodeStream, opsOutputs_encodeStream]

/-- A command blocked at a request stays so while no signal is there (U11). -/
theorem State.EncodingAt.step_wait (h : s.EncodingAt bits k rest t) (hr : takeSignal rest = none) :
    step t = .next t := by
  obtain ⟨ops, produced, b, -, rfl, -⟩ := h
  exact step_wait_of_blocked rfl hr

/-- RST abandons a command blocked at a request, and takes nothing back (R93). -/
theorem State.EncodingAt.step_reset (h : s.EncodingAt bits k rest t) {r : List Input}
    (hr : takeSignal rest = some (.reset, r)) : ∃ u, step t = .next u ∧
      u.fc = Frame.empty ∧ u.mlc = Mlc.empty ∧ u.blocked = none ∧ u.preamble = s.preamble ∧
      u.outputs = t.outputs := by
  obtain ⟨ops, produced, b, -, rfl, -⟩ := h
  exact ⟨_, step_reset_of_blocked rfl hr, rfl, rfl, rfl, rfl, rfl⟩

section Blocked

variable (hk : k < 2 * bits.length) (hc : Env.completions k is₀ = some rest) (hn : NoCompletion rest)
include hk hc hn

/-- With only the first k requests completed an encoder command is blocked at the next one (R32, R86). -/
theorem State.runEncoder_encodingAt : s.EncodingAt bits k rest (s.runEncoder bits is₀) := by
  obtain ⟨ops, produced, hrun, houts, hcount, -⟩ := runLine_partial (encodeStreamOps s.mlc.prev bits)
    { s with inputs := is₀ } k rest (by rwa [opsSleeps_encodeStream]) hc hn
  refine ⟨ops, produced ++ [.sleep], _, opsPrevAt_encodeStream s.mlc.prev bits k hk, ?_, ?_, by simp,
    by simp [hcount, Output.isSleep]⟩
  · rw [State.runEncoder, hrun, List.append_assoc]
  · rw [← opsOutputs_encodeStream, houts]
    exact ⟨opsOutputs ops, by simp⟩

/-- A completion that comes later has the effect it would have had at once (R32). -/
theorem State.step_runEncoder {is r : List Input} (hi : takeSignal is = some (.sleepDone, r)) :
    step { s.runEncoder bits is₀ with inputs := is } =
      .next (s.runEncoder bits (List.replicate k .sleepDone ++ is)) := by
  obtain ⟨ops, produced, hrun, -, -, -, hgo⟩ := runLine_partial (encodeStreamOps s.mlc.prev bits)
    { s with inputs := is₀ } k rest (by rwa [opsSleeps_encodeStream]) hc hn
  rw [State.runEncoder, hrun, step_resume rfl hi]
  exact congrArg _ ((hgo is r hi).trans (runLine_blocked ops _ (some ops)).symm).symm

variable {j : Nat} {is rest' : List Input} (hj : Env.completions j is = some rest')
include hj

/-- With j more completions, and a request after them, the command blocks again there. -/
theorem State.step_runEncoder_blocks (h1 : 1 ≤ j) (hlt : k + j < 2 * bits.length)
    (hn' : NoCompletion rest') : ∃ u, step { s.runEncoder bits is₀ with inputs := is } = .next u ∧
      s.EncodingAt bits (k + j) rest' u := by
  obtain ⟨r, hr⟩ := takeSignal_of_completions h1 hj
  exact ⟨_, State.step_runEncoder hk hc hn hr,
    State.runEncoder_encodingAt hlt (completions_replicate_append hj) hn'⟩

/-- With all the other completions the command ends as if all had been there at once. -/
theorem State.step_runEncoder_ends (he : k + j = 2 * bits.length) :
    step { s.runEncoder bits is₀ with inputs := is } = .next { s with
      mlc := { s.mlc with prev := bits.getLastD s.mlc.prev }, blocked := none, inputs := rest'
      outputs := s.outputs ++ lineOutputs s.mlc.prev bits ++ [.response ⟨.ok, 0⟩] } := by
  obtain ⟨r, hr⟩ := takeSignal_of_completions (by omega) hj
  rw [State.step_runEncoder hk hc hn hr,
    State.runEncoder_complete (he ▸ completions_replicate_append hj)]

end Blocked

end Encoder

/-- Settles O40: MC_ENCODE_BIT is the encoder over one bit, blocked at request k. -/
theorem blockedEncoderWaitsForTheTimer : Obligations.BlockedEncoderWaitsForTheTimer := by
  intro b s k rest hcfg hk hc hn
  have hrun := exec_mcEncodeBit_eq hcfg b
  have hat : s.EncodingAt [b] k rest (s.runEncoder [b] s.inputs) :=
    State.runEncoder_encodingAt hk hc hn
  refine ⟨_, hrun s.inputs, hat, hat.step_wait, fun _ => hat.step_reset, fun is r hi => ?_,
    fun j is rest' hj => ⟨State.step_runEncoder_blocks (bits := [b]) hk hc hn hj, fun he => ?_⟩⟩
  · rw [hrun, State.step_runEncoder (bits := [b]) hk hc hn hi]
  · rw [State.step_runEncoder_ends (bits := [b]) hk hc hn hj he]
    simp [lineOutputs]

/-- Settles O41: FC_SERIALIZE with sink 1 is the encoder over the wire stream, blocked at request k. -/
theorem encodedFrameResumesWhereItStopped : Obligations.EncodedFrameResumesWhereItStopped := by
  intro s k rest hcfg hdone hk hc hn
  have hlen : 2 * (8 * s.preamble.bytes + 40 + 8 * s.fc.size.toNat) =
      2 * (s.fc.wireStream s.preamble).length := by
    rw [wireStream_length]; omega
  rw [hlen] at hk ⊢
  have hrun := exec_fcSerialize_line_eq hcfg hdone
  have hat : s.EncodingAt (s.fc.wireStream s.preamble) k rest
      (s.runEncoder (s.fc.wireStream s.preamble) s.inputs) := State.runEncoder_encodingAt hk hc hn
  refine ⟨_, hrun s.inputs, hat, hat.step_wait, fun _ => hat.step_reset, fun is r hi => ?_,
    fun j is rest' hj => ⟨State.step_runEncoder_blocks hk hc hn hj, fun he => ?_⟩⟩
  · rw [hrun, State.step_runEncoder hk hc hn hi]
  · rw [State.step_runEncoder_ends hk hc hn hj he, wireStream_last]

end Sys2Proof.Machine

/-! Obligations of the state family: the invariant (O12, O13), what changes STAGE (O22), the preamble search (O36),
CFG_OK (O46), ORD_ERR (O47), and which commands write which registers (O55). -/

namespace Sys2Proof.Machine

/-! ### The invariant -/

theorem Mlc.empty_inv : Mlc.empty.Inv where
  configured := by simp [Mlc.empty]
  synchronized := by simp [Mlc.empty]
  disordered := by simp [Mlc.empty]

/-- RST leads to the invariant from every state (R93). -/
theorem State.hardwareReset_inv (s : State) : s.hardwareReset.Inv where
  fc := Frame.empty_inv _
  mlc := Mlc.empty_inv
  blocked h := absurd s.hardwareReset_blocked h

/-- Taking inputs does not touch the invariant. -/
theorem State.Inv.withInputs {s : State} (h : s.Inv) (is : List Input) :
    State.Inv { s with inputs := is } :=
  ⟨h.fc, h.mlc, h.blocked⟩

/-- A rejected word, too, keeps the invariant. -/
theorem runCommand_inv {s t : State} {c : Command} (hs : s.Inv) (h : runCommand c s = .next t) :
    t.Inv := by
  obtain ⟨e, -, rfl⟩ | ⟨i, -, hi⟩ := runCommand_cases h
  · exact ⟨hs.fc, hs.mlc, hs.blocked⟩
  · exact exec_inv hs hi

/-- Settles O12: the reset state is its own hardware reset. -/
theorem resetMeetsTheInvariant : Obligations.ResetMeetsTheInvariant :=
  State.reset.hardwareReset_inv

/-- Settles O13: a step waits, performs a command, goes on with a blocked one, whose codec the invariant says is
configured, or resets. -/
theorem everyStepKeepsTheInvariant : Obligations.EveryStepKeepsTheInvariant := by
  intro s t hs h
  obtain ⟨-, rfl⟩ | ⟨c, rest, -, -, hc⟩ | ⟨ops, rest, hb, -, rfl⟩ | ⟨rest, -, -, rfl⟩ := step_cases h
  · exact hs
  · exact runCommand_inv (hs.withInputs rest) hc
  · exact runLine_inv ops (hs.withInputs rest) (hs.blocked (by simp [hb]))
  · exact State.hardwareReset_inv _

/-! ### What each command does to the two codecs -/

@[simp] theorem runLine_fc (ops : List LineOp) (s : State) : (runLine ops s).fc = s.fc := by
  obtain ⟨p, is, ev, -, -, h | ⟨rest, -, -, -, h⟩⟩ := runLine_cases ops s <;> rw [h]

/-- Of the Manchester registers an event list writes PREV only (R69). -/
theorem runLine_mlc (ops : List LineOp) (s : State) :
    ∃ prev, (runLine ops s).mlc = { s.mlc with prev := prev } := by
  obtain ⟨p, is, ev, -, -, h | ⟨rest, -, -, -, h⟩⟩ := runLine_cases ops s <;> exact ⟨p, by rw [h]⟩

/-- The Frame a command can leave behind, by the command that writes it (R14). -/
inductive FrameEffect (s : State) : Instr → Frame → Prop
  | keep (i : Instr) : FrameEffect s i s.fc
  | consumeBit (b : Bool) : FrameEffect s (.fcConsumeBit b) (s.fc.consumeBit s.preamble b)
  | decodeEdge (dir : Direction) (ts : DWord) :
      FrameEffect s (.mcDecodeEdge dir .frame ts) (s.fc.consumeBit s.preamble dir.bit)
  | reset : FrameEffect s .fcReset Frame.empty
  | build (len : Byte) : FrameEffect s (.fcBuild len)
      ⟨.done, s.preamble.const, len, crc32 (s.fc.pbuf.bytes len.toNat), 0, s.fc.pbuf⟩
  | pbWrite (idx byte : Byte) :
      FrameEffect s (.pbWrite idx byte) { s.fc with pbuf := s.fc.pbuf.write idx.toNat byte }

/-- The Manchester registers a command can leave behind, by the command that writes them (R14). Only a refused
MC_DECODE_EDGE leaves them as they are. -/
inductive MlcEffect (s : State) : Instr → Mlc → Prop
  | keep {i : Instr} (h : ∀ dir route ts, i = .mcDecodeEdge dir route ts → s.mlc.cfgOk = false) :
      MlcEffect s i s.mlc
  | encode {i : Instr} (h : (∃ b, i = .mcEncodeBit b) ∨ i = .fcSerialize .line) (prev : Bool) :
      MlcEffect s i { s.mlc with prev := prev }
  | config {x y : DWord} (h : (Instr.mcConfig x y).WellFormed) : MlcEffect s (.mcConfig x y)
      ⟨low32 x, low32 y, false, false, 0, true, s.mlc.ordErr⟩
  | decodeEdge (h : s.mlc.cfgOk = true) (dir : Direction) (route : Route) (ts : DWord) :
      MlcEffect s (.mcDecodeEdge dir route ts) (s.mlc.afterEdge ts)

/-- An MC_CONFIG that passes the checks of R68 is well formed. -/
theorem mcConfig_wellFormed {x y : DWord} (hx : fits32 x = true) (hy : fits32 y = true)
    (h0 : low32 x ≠ 0) : (Instr.mcConfig x y).WellFormed := by
  have hxy : ¬ (2 ^ 32 ≤ x.toNat ∨ 2 ^ 32 ≤ y.toNat) := by
    rw [fits32_iff] at hx hy
    omega
  have hne : x ≠ 0 := by
    rintro rfl
    exact h0 rfl
  rw [Instr.WellFormed, Instr.operandError, if_neg hxy, if_neg hne]

section Effects

variable {s t : State} {i : Instr} {f : Frame} {m : Mlc}

/-- What each command does to the Frame (R14). -/
theorem exec_frameEffect (h : exec i s = .next t) : FrameEffect s i t.fc := by
  cases i with
  | fcConsumeBit b =>
    obtain ⟨-, rfl⟩ := exec_fcConsumeBit_next h
    exact .consumeBit b
  | fcReset =>
    obtain rfl := exec_fcReset_next h
    exact .reset
  | fcIsValid =>
    obtain rfl := exec_fcIsValid_next h
    exact .keep _
  | fcBuild len =>
    obtain ⟨-, rfl⟩ | ⟨-, rfl⟩ := exec_fcBuild_next h
    · exact .keep _
    · exact .build len
  | fcSerialize sink =>
    obtain ⟨-, -, rfl⟩ | ⟨-, rfl⟩ | ⟨-, -, rfl⟩ | ⟨-, -, -, rfl⟩ := exec_fcSerialize_next h
    · exact .keep _
    · exact .keep _
    · exact .keep _
    · rw [runLine_fc]; exact .keep _
  | mcConfig x y =>
    obtain ⟨-, rfl⟩ | ⟨-, -, -, rfl⟩ | ⟨-, -, -, rfl⟩ := exec_mcConfig_next h <;> exact .keep _
  | mcEncodeBit b =>
    obtain ⟨-, rfl⟩ | ⟨-, rfl⟩ := exec_mcEncodeBit_next h
    · exact .keep _
    · rw [runLine_fc]; exact .keep _
  | mcDecodeEdge dir route ts =>
    obtain ⟨-, rfl⟩ | ⟨-, -, ⟨-, -, rfl⟩ | ⟨rfl, -, -, rfl⟩ | ⟨-, rfl⟩⟩ := exec_mcDecodeEdge_next h
    · exact .keep _
    · exact .keep _
    · exact .decodeEdge dir ts
    · exact .keep _
  | pbWrite idx byte =>
    obtain ⟨-, rfl⟩ | ⟨-, rfl⟩ := exec_pbWrite_next h
    · exact .keep _
    · exact .pbWrite idx byte
  | pbRead idx =>
    obtain ⟨-, rfl⟩ | ⟨-, rfl⟩ := exec_pbRead_next h <;> exact .keep _
  | regRead sel =>
    obtain ⟨-, rfl⟩ | ⟨r, -, rfl⟩ := exec_regRead_next h <;> exact .keep _

/-- Running the encoder leaves what its commands may write. -/
theorem MlcEffect.line (h : (∃ b, i = .mcEncodeBit b) ∨ i = .fcSerialize .line) (ops : List LineOp) :
    MlcEffect s i (runLine ops s).mlc := by
  obtain ⟨prev, hm⟩ := runLine_mlc ops s
  rw [hm]
  exact .encode h prev

/-- What each command does to the Manchester registers (R14). -/
theorem exec_mlcEffect (h : exec i s = .next t) : MlcEffect s i t.mlc := by
  cases i with
  | fcConsumeBit b =>
    obtain ⟨-, rfl⟩ := exec_fcConsumeBit_next h
    exact .keep (by simp)
  | fcReset =>
    obtain rfl := exec_fcReset_next h
    exact .keep (by simp)
  | fcIsValid =>
    obtain rfl := exec_fcIsValid_next h
    exact .keep (by simp)
  | fcBuild len =>
    obtain ⟨-, rfl⟩ | ⟨-, rfl⟩ := exec_fcBuild_next h <;> exact .keep (by simp)
  | fcSerialize sink =>
    obtain ⟨-, -, rfl⟩ | ⟨-, rfl⟩ | ⟨-, -, rfl⟩ | ⟨-, rfl, -, rfl⟩ := exec_fcSerialize_next h
    · exact .keep (by simp)
    · exact .keep (by simp)
    · exact .keep (by simp)
    · exact .line (.inr rfl) _
  | mcConfig x y =>
    obtain ⟨-, rfl⟩ | ⟨-, -, -, rfl⟩ | ⟨hx, hy, h0, rfl⟩ := exec_mcConfig_next h
    · exact .keep (by simp)
    · exact .keep (by simp)
    · exact .config (mcConfig_wellFormed hx hy h0)
  | mcEncodeBit b =>
    obtain ⟨-, rfl⟩ | ⟨-, rfl⟩ := exec_mcEncodeBit_next h
    · exact .keep (by simp)
    · exact .line (.inl ⟨b, rfl⟩) _
  | mcDecodeEdge dir route ts =>
    obtain ⟨hc, rfl⟩ | ⟨hc, -, ⟨-, -, rfl⟩ | ⟨-, -, -, rfl⟩ | ⟨-, rfl⟩⟩ := exec_mcDecodeEdge_next h
    · exact .keep fun _ _ _ _ => hc
    · exact .decodeEdge hc dir route ts
    · exact .decodeEdge hc dir route ts
    · exact .decodeEdge hc dir route ts
  | pbWrite idx byte =>
    obtain ⟨-, rfl⟩ | ⟨-, rfl⟩ := exec_pbWrite_next h <;> exact .keep (by simp)
  | pbRead idx =>
    obtain ⟨-, rfl⟩ | ⟨-, rfl⟩ := exec_pbRead_next h <;> exact .keep (by simp)
  | regRead sel =>
    obtain ⟨-, rfl⟩ | ⟨r, -, rfl⟩ := exec_regRead_next h <;> exact .keep (by simp)

/-! ### Register by register -/

/-- A change of STAGE that the rules allow without FC_BUILD (R17): one stage on, or the Frame reset. -/
def Frame.StageMoves (f g : Frame) : Prop :=
  (f.stage = .preamble ∧ g.stage = .size) ∨ (f.stage = .size ∧ g.stage = .data) ∨
    (f.stage = .data ∧ g.stage = .checksum) ∨ (f.stage = .checksum ∧ g.stage = .done) ∨
    g = Frame.empty

/-- A command that changes STAGE moves it, or is FC_BUILD (R17). -/
theorem FrameEffect.stage (h : FrameEffect s i f) (hne : f.stage ≠ s.fc.stage) :
    s.fc.StageMoves f ∨ (f.stage = .done ∧ ∃ len, i = .fcBuild len) := by
  cases h with
  | keep => exact absurd rfl hne
  | consumeBit b => exact .inl ((Frame.consumeBit_stage _ b _).resolve_left hne)
  | decodeEdge dir ts => exact .inl ((Frame.consumeBit_stage _ dir.bit _).resolve_left hne)
  | reset => exact .inl (by simp [Frame.StageMoves])
  | build len => exact .inr ⟨rfl, len, rfl⟩
  | pbWrite idx byte => exact absurd rfl hne

/-- The commands that write a frame register (10_state.md section 6). -/
theorem FrameEffect.registers (h : FrameEffect s i f)
    (hne : f.stage ≠ s.fc.stage ∨ f.pre ≠ s.fc.pre ∨ f.size ≠ s.fc.size ∨ f.csum ≠ s.fc.csum ∨
      f.bitpos ≠ s.fc.bitpos) :
    (∃ b, i = .fcConsumeBit b) ∨ (∃ dir ts, i = .mcDecodeEdge dir .frame ts) ∨
      (∃ len, i = .fcBuild len) ∨ i = .fcReset := by
  cases h with
  | keep | pbWrite => simp at hne
  | consumeBit | decodeEdge | reset | build => simp

/-- The commands that write PBUF (10_state.md section 6). -/
theorem FrameEffect.pbuf (h : FrameEffect s i f) (hne : f.pbuf ≠ s.fc.pbuf) :
    (∃ b, i = .fcConsumeBit b) ∨ (∃ dir ts, i = .mcDecodeEdge dir .frame ts) ∨ i = .fcReset ∨
      ∃ idx byte, i = .pbWrite idx byte := by
  cases h with
  | keep | build => exact absurd rfl hne
  | consumeBit | decodeEdge | reset | pbWrite => simp

/-- Only a well-formed MC_CONFIG writes CFG_OK, and sets it (R29). -/
theorem MlcEffect.cfgOk (h : MlcEffect s i m) (hne : m.cfgOk ≠ s.mlc.cfgOk) :
    ∃ x y, i = .mcConfig x y ∧ i.WellFormed ∧ m.cfgOk = true := by
  cases h with
  | keep | encode => exact absurd rfl hne
  | config hw => exact ⟨_, _, rfl, hw, rfl⟩
  | decodeEdge => exact absurd (Mlc.afterEdge_cfgOk ..) hne

/-- Only MC_CONFIG writes H, S or CFG_OK (10_state.md section 6). -/
theorem MlcEffect.configuration (h : MlcEffect s i m)
    (hne : m.halfPeriod ≠ s.mlc.halfPeriod ∨ m.sensitivity ≠ s.mlc.sensitivity ∨
      m.cfgOk ≠ s.mlc.cfgOk) : ∃ x y, i = .mcConfig x y := by
  cases h with
  | keep | encode | decodeEdge => simp at hne
  | config => exact ⟨_, _, rfl⟩

/-- The commands that write PREV (10_state.md section 6). -/
theorem MlcEffect.prev (h : MlcEffect s i m) (hne : m.prev ≠ s.mlc.prev) :
    (∃ b, i = .mcEncodeBit b) ∨ i = .fcSerialize .line ∨ ∃ x y, i = .mcConfig x y := by
  cases h with
  | keep | decodeEdge => simp at hne
  | encode hi => exact hi.imp_right .inl
  | config => exact .inr (.inr ⟨_, _, rfl⟩)

/-- The commands that write the timing reference (10_state.md section 6). -/
theorem MlcEffect.reference (h : MlcEffect s i m)
    (hne : m.syncV ≠ s.mlc.syncV ∨ m.lastTs ≠ s.mlc.lastTs) :
    (∃ dir route ts, i = .mcDecodeEdge dir route ts) ∨ ∃ x y, i = .mcConfig x y := by
  cases h with
  | keep | encode => simp at hne
  | config => exact .inr ⟨_, _, rfl⟩
  | decodeEdge => exact .inl ⟨_, _, _, rfl⟩

/-- ORD_ERR is set by an edge below LAST_TS while synchronized, and cleared by no command (R30). -/
theorem MlcEffect.ordErr_iff (h : MlcEffect s i m) :
    m.ordErr = true ↔ s.mlc.ordErr = true ∨
      ∃ dir route ts, i = .mcDecodeEdge dir route ts ∧ s.mlc.cfgOk = true ∧ s.mlc.syncV = true ∧
        ts.toNat < s.mlc.lastTs.toNat := by
  cases h with
  | keep hi =>
    refine (or_iff_left ?_).symm
    rintro ⟨dir, route, ts, rfl, hc, -⟩
    simp [hi _ _ _ rfl] at hc
  | encode hi => obtain ⟨b, rfl⟩ | rfl := hi <;> simp
  | config => simp
  | decodeEdge hc => simp [Mlc.outOfOrder, hc]

/-- Only MC_DECODE_EDGE writes ORD_ERR (10_state.md section 6). -/
theorem MlcEffect.ordErr (h : MlcEffect s i m) (hne : m.ordErr ≠ s.mlc.ordErr) :
    ∃ dir route ts, i = .mcDecodeEdge dir route ts := by
  cases h with
  | keep | encode | config => exact absurd rfl hne
  | decodeEdge => exact ⟨_, _, _, rfl⟩

end Effects

/-- Settles O22: of the ways a step goes, a command and RST can change STAGE, and a command does so by its effect
on the Frame. -/
theorem stageChangesInThreeWays : Obligations.StageChangesInThreeWays := by
  intro s t h hne
  obtain ⟨-, rfl⟩ | ⟨c, rest, -, hi, hc⟩ | ⟨ops, rest, -, -, rfl⟩ | ⟨rest, -, -, rfl⟩ := step_cases h
  · exact absurd rfl hne
  · obtain ⟨e, -, rfl⟩ | ⟨i, hd, hx⟩ := runCommand_cases hc
    · exact absurd rfl hne
    · have hm : s.fc.StageMoves t.fc ∨ (t.fc.stage = .done ∧
          ∃ c rest len, s.inputs = .command c :: rest ∧ decode c = .ok (.fcBuild len)) :=
        ((exec_frameEffect hx).stage hne).imp_right fun ⟨hdone, len, he⟩ =>
          ⟨hdone, c, rest, len, hi, he ▸ hd⟩
      simpa only [Frame.StageMoves, Frame.empty, or_assoc] using hm
  · exact absurd (congrArg Frame.stage (runLine_fc ops _)) hne
  · exact .inr (.inr (.inr (.inr (.inl rfl))))

/-- The commands that need a configured codec are refused without one (R29). -/
theorem exec_of_not_configured {i : Instr} {s : State} (hc : s.mlc.cfgOk = false)
    (hi : (∃ b, i = .mcEncodeBit b) ∨ (∃ dir route ts, i = .mcDecodeEdge dir route ts) ∨
      i = .fcSerialize .line) : exec i s = .next (s.raise .notConfigured) := by
  obtain ⟨b, rfl⟩ | ⟨dir, route, ts, rfl⟩ | rfl := hi
  · rw [exec, execMcEncodeBit, if_pos hc]
  · rw [exec, execMcDecodeEdge, if_pos hc]
  · rw [exec, execFcSerialize, if_pos ⟨rfl, hc⟩]

/-- Settles O46: the refusal, and CFG_OK read off the command's effect on the codec. -/
theorem unconfiguredCodecRefuses : Obligations.UnconfiguredCodecRefuses :=
  ⟨fun _ _ hc hi => exec_of_not_configured hc hi, fun _ _ _ h hne => (exec_mlcEffect h).cfgOk hne, rfl⟩

/-- No command clears ORD_ERR, a rejected word neither (R30). -/
theorem runCommand_ordErr {s t : State} {c : Command} (h : runCommand c s = .next t)
    (ho : s.mlc.ordErr = true) : t.mlc.ordErr = true := by
  obtain ⟨e, -, rfl⟩ | ⟨i, -, hi⟩ := runCommand_cases h
  · exact ho
  · exact (exec_mlcEffect hi).ordErr_iff.2 (.inl ho)

/-- Settles O47: of the ways a step goes, all but RST keep a set ORD_ERR. -/
theorem orderErrorIsStickyUntilHardwareReset : Obligations.OrderErrorIsStickyUntilHardwareReset := by
  refine ⟨fun i s t h => (exec_mlcEffect h).ordErr_iff, fun s t h hs ht => ?_, rfl⟩
  obtain ⟨-, rfl⟩ | ⟨c, rest, -, -, hc⟩ | ⟨ops, rest, -, -, rfl⟩ | ⟨rest, -, hf, -⟩ := step_cases h
  · simp [hs] at ht
  · simp [runCommand_ordErr hc hs] at ht
  · obtain ⟨prev, hm⟩ := runLine_mlc ops { s with inputs := rest }
    simp [hm, hs] at ht
  · exact ⟨_, hf⟩

/-- Settles O55: each row of the table is read off the command's effect on its codec. -/
theorem registersAreWrittenByTheirNamedCommands :
    Obligations.RegistersAreWrittenByTheirNamedCommands := by
  intro i s t h
  have hf := exec_frameEffect h
  have hm := exec_mlcEffect h
  exact ⟨hf.registers, hf.pbuf, hm.configuration, hm.prev, hm.reference, hm.ordErr⟩

/-! ### The preamble search -/

section Search

variable (p : Preamble)

theorem msbFirst_eq_bitsMSB {n : Nat} (v : BitVec n) (w : Nat) : msbFirst v w = bitsMSB v w :=
  (bitsMSB_eq_range v w).symm

/-- A bit sequence that ends in as many bits as PRE holds has a last bit (R7). -/
theorem append_ne_nil_of_width (noise : List Bool) {last : List Bool}
    (hl : last.length = 8 * p.bytes) : noise ++ last ≠ [] := by
  have := preamble_bytes_pos p
  exact List.append_ne_nil_of_right_ne_nil _ (List.ne_nil_of_length_pos (by omega))

/-- PRE holds the last 8·N bits that went into it, whatever came before (R18). -/
theorem foldl_shiftPre_eq_const_iff (pre : Word) (noise : List Bool) {last : List Bool}
    (hl : last.length = 8 * p.bytes) :
    (noise ++ last).foldl (shiftPre p) pre = p.const ↔ last = bitsMSB p.const (8 * p.bytes) := by
  have hpre : ((noise ++ last).foldl (shiftPre p) pre).toNat = bitsValue 0 last := by
    rw [foldl_shiftPre_toNat_of_ne_nil p pre (append_ne_nil_of_width p noise hl), bitsValue_append,
      bitsValue_eq, hl, Nat.mul_add_mod_self_right,
      Nat.mod_eq_of_lt (hl ▸ bitsValue_lt last)]
  have hconst : bitsValue 0 (bitsMSB p.const (8 * p.bytes)) = p.const.toNat := by
    rw [bitsValue_bitsMSB, Nat.zero_mul, Nat.zero_add, Nat.mod_eq_of_lt (preamble_const_lt p)]
  rw [← BitVec.toNat_inj, hpre, ← hconst]
  exact ⟨bitsValue_injective (by simp [hl]), congrArg (bitsValue 0)⟩

/-- A search that lasts up to its last bit ends at it exactly when PRE is then the constant (R60). -/
theorem Frame.consumeBits_stage_size_iff {f : Frame} (h : f.stage = .preamble) {bs : List Bool}
    (hne : bs ≠ [])
    (hs : ∀ n < bs.length, (f.consumeBits p (bs.take n)).stage = .preamble) :
    (f.consumeBits p bs).stage = .size ↔ bs.foldl (shiftPre p) f.pre = p.const := by
  obtain ⟨xs, b, rfl⟩ := List.eq_nil_or_concat' bs |>.resolve_left hne
  have hxs := Frame.preamble_no_match p f xs h fun n hn => by
    have := hs n (by simp; omega)
    rwa [List.take_append_of_le_length hn] at this
  rw [Frame.consumeBits_append, hxs, Frame.consumeBits_cons, Frame.consumeBits_nil,
    Frame.consumeBit_preamble p (f := { f with pre := xs.foldl (shiftPre p) f.pre }) h,
    List.foldl_append, List.foldl_cons, List.foldl_nil]
  split
  · next he => simp [he]
  · next he => simp [he, h]

end Search

/-- Settles O36: the search ends where PRE becomes the constant, and PRE is the last 8·N bits. -/
theorem preambleMatchesOnItsLastBits : Obligations.PreambleMatchesOnItsLastBits := by
  intro p f noise last h hl hs
  rw [Frame.consumeBits_stage_size_iff p h (append_ne_nil_of_width p noise hl) hs,
    foldl_shiftPre_eq_const_iff p f.pre noise hl, msbFirst_eq_bitsMSB]

end Sys2Proof.Machine

/-! Obligations of the memory family: one response per command (O18), the port while a command is blocked (O42),
where events come from (O54), ill-formed commands (O17), REG_READ's selector map (O52), and queries (O53). -/

namespace Sys2Proof.Machine

/-! ### Responses and the port -/

/-- Settles O18: the outputs of the command's `Summary`; with nothing blocked before, a command that responds leaves
nothing blocked. -/
theorem oneResponseAfterTheEvents : Obligations.OneResponseAfterTheEvents := by
  intro s t c rest hb hi h
  rw [step_command hb hi] at h
  obtain ⟨events, he, ⟨hbt, r, ho, -⟩ | ⟨hbt, -, ho⟩⟩ := (runCommand_summary h).outputs
  · exact ⟨events, he, .inl ⟨hbt.elim (·.trans hb) id, r, ho⟩⟩
  · exact ⟨events, he, .inr ⟨hbt, ho⟩⟩

/-- Settles O42: of the ways a step goes, a blocked command leaves waiting, going on and RST, and none of them takes
a command. -/
theorem portIsHeldWhileBlocked : Obligations.PortIsHeldWhileBlocked := by
  intro s hb
  obtain ⟨ops, hops⟩ := Option.ne_none_iff_exists'.1 hb
  refine ⟨step_wait_of_blocked hops, fun t h => ?_⟩
  obtain ⟨-, rfl⟩ | ⟨c, rest, hn, -, -⟩ | ⟨ops', rest, -, hi, ht⟩ | ⟨rest, hr, -, rfl⟩ := step_cases h
  · rfl
  · exact absurd hn hb
  · exact (Summary.line ht).commands.trans (takeSignal_isCommand hi)
  · exact hr

/-! ### Where events come from -/

/-- The outputs a command can produce (R42, R88). -/
inductive Emits : Instr → Output → Prop
  | response (i : Instr) (r : Response) : Emits i (.response r)
  | serializedBit (b : Bool) : Emits (.fcSerialize .bits) (.bit b)
  | edgeBit (dir : Direction) (ts : DWord) : Emits (.mcDecodeEdge dir .channel ts) (.bit dir.bit)
  | line {i : Instr} {o : Output} (hi : i = .fcSerialize .line ∨ ∃ b, i = .mcEncodeBit b)
      (ho : o = .sleep ∨ ∃ l, o = .sig l) : Emits i o

/-- From s to t the outputs grow by outputs the command i can produce. -/
def Produces (i : Instr) (s t : State) : Prop :=
  ∃ produced, t.outputs = s.outputs ++ produced ∧ ∀ o ∈ produced, Emits i o

section Events

variable {s t : State} {i : Instr}

/-- A command without events. -/
theorem Produces.response {r : Response} (h : t.outputs = s.outputs ++ [.response r]) :
    Produces i s t :=
  ⟨_, h, by simpa using .response i r⟩

/-- A command that responds after its events. -/
theorem Produces.events {events : List Output} {r : Response} (he : ∀ o ∈ events, Emits i o)
    (h : t.outputs = s.outputs ++ events ++ [.response r]) : Produces i s t :=
  ⟨events ++ [.response r], by rw [h, List.append_assoc],
    List.forall_mem_append.2 ⟨he, by simpa using .response i r⟩⟩

/-- Running the encoder produces SIG and SLEEP events, whether it ends or is blocked. -/
theorem Produces.line (hi : i = .fcSerialize .line ∨ ∃ b, i = .mcEncodeBit b) (ops : List LineOp) :
    Produces i s (runLine ops s) := by
  obtain ⟨p, is, ev, -, he, h | ⟨rest, -, -, -, h⟩⟩ := runLine_cases ops s <;> rw [h]
  · exact .events (fun o ho => .line hi (he o ho)) rfl
  · exact ⟨ev, rfl, fun o ho => .line hi (he o ho)⟩

/-- What each command produces (R14). -/
theorem exec_produces (h : exec i s = .next t) : Produces i s t := by
  cases i with
  | fcConsumeBit b =>
    obtain ⟨-, rfl⟩ := exec_fcConsumeBit_next h
    exact .response rfl
  | fcReset =>
    obtain rfl := exec_fcReset_next h
    exact .response rfl
  | fcIsValid =>
    obtain rfl := exec_fcIsValid_next h
    exact .response rfl
  | fcBuild len =>
    obtain ⟨-, rfl⟩ | ⟨-, rfl⟩ := exec_fcBuild_next h <;> exact .response rfl
  | fcSerialize sink =>
    obtain ⟨-, -, rfl⟩ | ⟨-, rfl⟩ | ⟨-, rfl, rfl⟩ | ⟨-, rfl, -, rfl⟩ := exec_fcSerialize_next h
    · exact .response rfl
    · exact .response rfl
    · exact .events (List.forall_mem_map.2 fun b _ => .serializedBit b) rfl
    · exact .line (.inl rfl) _
  | mcConfig x y =>
    obtain ⟨-, rfl⟩ | ⟨-, -, -, rfl⟩ | ⟨-, -, -, rfl⟩ := exec_mcConfig_next h <;> exact .response rfl
  | mcEncodeBit b =>
    obtain ⟨-, rfl⟩ | ⟨-, rfl⟩ := exec_mcEncodeBit_next h
    · exact .response rfl
    · exact .line (.inr ⟨b, rfl⟩) _
  | mcDecodeEdge dir route ts =>
    obtain ⟨-, rfl⟩ | ⟨-, -, ⟨rfl, -, rfl⟩ | ⟨-, -, -, rfl⟩ | ⟨-, rfl⟩⟩ := exec_mcDecodeEdge_next h
    · exact .response rfl
    · exact .events (List.forall_mem_singleton.2 (.edgeBit dir ts)) rfl
    · exact .response rfl
    · exact .response rfl
  | pbWrite idx byte =>
    obtain ⟨-, rfl⟩ | ⟨-, rfl⟩ := exec_pbWrite_next h <;> exact .response rfl
  | pbRead idx =>
    obtain ⟨-, rfl⟩ | ⟨-, rfl⟩ := exec_pbRead_next h <;> exact .response rfl
  | regRead sel =>
    obtain ⟨-, rfl⟩ | ⟨r, -, rfl⟩ := exec_regRead_next h <;> exact .response rfl

variable {o : Output}

/-- The commands that produce BIT events (R42, R88). -/
theorem Emits.of_bit {b : Bool} (h : Emits i (.bit b)) :
    i = .fcSerialize .bits ∨ ∃ dir ts, i = .mcDecodeEdge dir .channel ts := by
  cases h with
  | serializedBit => exact .inl rfl
  | edgeBit dir ts => exact .inr ⟨dir, ts, rfl⟩
  | line hi ho => simp at ho

/-- The commands that produce SIG and SLEEP events (R42). -/
theorem Emits.of_line (h : Emits i o) (ho : o = .sleep ∨ ∃ l, o = .sig l) :
    i = .fcSerialize .line ∨ ∃ b, i = .mcEncodeBit b := by
  cases h with
  | response | serializedBit | edgeBit => simp at ho
  | line hi _ => exact hi

end Events

/-- Settles O54, by what each command produces. -/
theorem eventsComeFromTheirCommands : Obligations.EventsComeFromTheirCommands := by
  intro i s t h
  obtain ⟨produced, ho, he⟩ := exec_produces h
  refine ⟨produced, ho, fun o hm => ⟨?_, (he o hm).of_line⟩⟩
  rintro b rfl
  exact (he _ hm).of_bit

/-! ### Operand errors and the register map -/

section Operands

variable {s : State} {sel : Byte}

/-- A reserved selector is refused (R35). -/
theorem exec_regRead_reserved (h : 12 ≤ sel.toNat) : exec (.regRead sel) s = .next (s.raise .badArg) := by
  rw [exec, execRegRead, (ofSelector?_eq_none_iff sel).2 h]

/-- A selector of the map reads its register (R77). -/
theorem exec_regRead_of_selector {r : Reg} (h : Reg.ofSelector? sel = some r) :
    exec (.regRead sel) s = .next (s.respond (r.value s)) := by
  rw [exec, execRegRead, h]

/-- An operand of MC_CONFIG above 32 bits is refused (R68). -/
theorem exec_mcConfig_wide {x y : DWord} (h : 2 ^ 32 ≤ x.toNat ∨ 2 ^ 32 ≤ y.toNat) :
    exec (.mcConfig x y) s = .next (s.raise .badArg) := by
  rw [exec, execMcConfig]
  exact if_pos (h.imp (fits32_eq_false_iff x).2 (fits32_eq_false_iff y).2)

/-- The half-period 0 is refused once the operands fit (R68, R80). -/
theorem exec_mcConfig_zero {y : DWord} (h : ¬ 2 ^ 32 ≤ y.toNat) :
    exec (.mcConfig 0 y) s = .next (s.raise .configInvalid) := by
  have hf : ¬ (fits32 0 = false ∨ fits32 y = false) := by
    rw [fits32_eq_false_iff y]
    exact not_or.2 ⟨by decide, h⟩
  rw [exec, execMcConfig, if_neg hf]
  exact if_pos rfl

end Operands

/-- Settles O17: each command's operand check raises its error before anything else is looked at. -/
theorem operandErrorsAreAnswered : Obligations.OperandErrorsAreAnswered := by
  intro i e s h
  cases i with
  | mcConfig x y =>
    rw [Instr.operandError] at h
    split_ifs at h with hw h0 <;> cases h
    · exact exec_mcConfig_wide hw
    · subst h0
      exact exec_mcConfig_zero fun hy => hw (.inr hy)
  | fcBuild len | pbWrite idx byte | pbRead idx =>
    obtain ⟨rfl, he⟩ := Option.ite_none_right_eq_some.1 h
    cases he
    rfl
  | regRead sel =>
    obtain ⟨hs, he⟩ := Option.ite_none_right_eq_some.1 h
    cases he
    exact exec_regRead_reserved hs
  | fcConsumeBit | fcReset | fcIsValid | fcSerialize | mcEncodeBit | mcDecodeEdge => cases h

/-- A flag's result word has the flag's value (R54). -/
theorem boolResult_toNat (b : Bool) : (boolResult b).toNat = b.toNat := by cases b <;> rfl

/-- PREAMBLE_BYTES as a result word keeps its value (R7). -/
theorem preamble_bytes_word_toNat (p : Preamble) : (BitVec.ofNat 64 p.bytes).toNat = p.bytes := by
  cases p <;> rfl

/-- Settles O52: the decoder's two answers for the opcode's mask, the map's registers one by one, and the refusal of
the reserved selectors. -/
theorem registerReadFollowsTheSelectorMap : Obligations.RegisterReadFollowsTheSelectorMap := by
  refine ⟨fun c hc => ⟨decode_of_mask .regRead hc, decode_of_not_mask .regRead hc⟩,
    fun sel s => ⟨fun hs => ?_, exec_regRead_reserved⟩⟩
  obtain ⟨r, hr⟩ : ∃ r, Reg.ofSelector? sel = some r :=
    Option.ne_none_iff_exists'.1 fun h => absurd ((ofSelector?_eq_none_iff sel).1 h) (by omega)
  refine ⟨r.value s, exec_regRead_of_selector hr, ?stage, ?pre, ?size, ?csum, ?bitpos, ?h, ?s, ?prev,
    ?lastTs, ?status, ?paramN, ?paramConst⟩ <;> rintro rfl <;> obtain rfl := Option.some.inj hr
  case stage => rw [Reg.value]; cases s.fc.stage <;> rfl
  case prev => exact boolResult_toNat _
  case lastTs => rfl
  case status => exact status_toNat _
  case paramN => exact preamble_bytes_word_toNat _
  case pre | size | csum | bitpos | h | s | paramConst =>
    exact BitVec.toNat_setWidth_of_le (by decide)

/-! ### Queries -/

/-- A query's response does not depend on the outputs so far, and is all that it adds (R42). -/
theorem exec_query {i : Instr} (s : State)
    (hi : (∃ idx, i = .pbRead idx) ∨ (∃ sel, i = .regRead sel) ∨ i = .fcIsValid) :
    ∃ r : Response, ∀ os : List Output,
      exec i { s with outputs := os } = .next { s with outputs := os ++ [.response r] } := by
  obtain ⟨idx, rfl⟩ | ⟨sel, rfl⟩ | rfl := hi
  · by_cases h : idx = 255
    · subst h
      exact ⟨⟨.badArg, 0⟩, fun _ => rfl⟩
    · refine ⟨⟨.ok, (s.fc.pbuf.read idx.toNat).setWidth 64⟩, fun _ => ?_⟩
      rw [exec, execPbRead, pbufIndex?, if_neg h]
      rfl
  · by_cases h : 12 ≤ sel.toNat
    · exact ⟨⟨.badArg, 0⟩, fun _ => exec_regRead_reserved h⟩
    · obtain ⟨r, hr⟩ := Option.ne_none_iff_exists'.1 (mt (ofSelector?_eq_none_iff sel).1 h)
      exact ⟨⟨.ok, r.value s⟩, fun _ => exec_regRead_of_selector hr⟩
  · exact ⟨⟨.ok, boolResult s.fc.isValid⟩, fun _ => rfl⟩

/-- Settles O53: the query is the same whatever was output, so also right after itself. -/
theorem queriesHaveNoSideEffects : Obligations.QueriesHaveNoSideEffects := by
  intro i s hi
  obtain ⟨r, hr⟩ := exec_query s hi
  exact ⟨r, hr s.outputs, (hr _).trans (by rw [List.append_assoc]; rfl)⟩

end Sys2Proof.Machine

/-! Obligations of the encoding family: the decoder and the encoder (O1 to O5, O7), the pseudo-instructions (O6, O37),
what a step does with a command word (O9, O14), the wire stream (O27, O28), and the edge decoder (O44, O45). -/

namespace Sys2Proof.Machine

/-! ### Encoding and decoding -/

@[simp] theorem direction_ofBit_bit (dir : Direction) : Direction.ofBit dir.bit = dir := by cases dir <;> rfl

@[simp] theorem direction_bit_ofBit (b : Bool) : (Direction.ofBit b).bit = b := by cases b <;> rfl

@[simp] theorem sink_ofBit_bit (sink : Sink) : Sink.ofBit sink.bit = sink := by cases sink <;> rfl

@[simp] theorem sink_bit_ofBit (b : Bool) : (Sink.ofBit b).bit = b := by cases b <;> rfl

@[simp] theorem route_ofBit_bit (route : Route) : Route.ofBit route.bit = route := by cases route <;> rfl

@[simp] theorem route_bit_ofBit (b : Bool) : (Route.ofBit b).bit = b := by cases b <;> rfl

/-- Every encoded word passes the decoder's two checks (R50). -/
theorem encode_passes_the_checks (i : Instr) :
    (encode i).opc = i.opcode.code ∧ (encode i).cmd &&& i.opcode.mask = i.opcode.matchWord := by
  open Laws.EncodedWordPassesTheChecks in
  cases i with
  | fcConsumeBit b => exact fcConsumeBit b
  | fcReset => exact fcReset
  | fcIsValid => exact fcIsValid
  | fcBuild len => exact fcBuild len
  | fcSerialize sink => exact fcSerialize sink
  | mcConfig x y => exact mcConfig x y
  | mcEncodeBit b => exact mcEncodeBit b
  | mcDecodeEdge dir route ts => exact mcDecodeEdge dir route ts
  | pbWrite idx byte => exact pbWrite idx byte
  | pbRead idx => exact pbRead idx
  | regRead sel => exact regRead sel

/-- The fields an opcode uses are read back from the encoded words (R49). -/
theorem instr_encode (i : Instr) : i.opcode.instr (encode i) = i := by
  cases i with
  | fcReset | fcIsValid | mcConfig => rfl
  | fcConsumeBit | fcBuild | fcSerialize | mcEncodeBit | mcDecodeEdge | pbWrite | pbRead | regRead =>
    simp [Instr.opcode, encode, Opcode.instr]

/-- Settles O2: the encoded word passes the checks, and its fields are the command's operands. -/
theorem decodeOfEncodeIsTheCommand : Obligations.DecodeOfEncodeIsTheCommand := by
  intro i
  obtain ⟨hopc, hmask⟩ := encode_passes_the_checks i
  rw [decode_of_mask i.opcode hopc hmask, instr_encode]

section Accepted

variable {c : Command} {o : Opcode}

/-- The A field is 0 in an accepted word whose opcode does not use it (R48). -/
theorem a_eq_zero_of_mask (hm : c.cmd &&& o.mask = o.matchWord)
    (hk : ∀ i < 16, 8 ≤ i → o.mask.getLsbD i = true) : c.a = 0 :=
  a_zero fun i h8 h16 => fixed_bit_zero hm (hk i h16 h8) h8

/-- The D field is 0 in an accepted word whose opcode does not use it (R48). -/
theorem d_eq_zero_of_mask (hm : c.cmd &&& o.mask = o.matchWord)
    (hk : ∀ i < 24, 16 ≤ i → o.mask.getLsbD i = true) : c.d = 0 :=
  d_zero fun i h16 h24 => fixed_bit_zero hm (hk i h24 h16) (by omega)

/-- The B bit is 0 in an accepted word whose opcode does not use it (R48). -/
theorem b_eq_false_of_mask (hm : c.cmd &&& o.mask = o.matchWord) (hk : o.mask.getLsbD 24 = true) :
    c.b = false :=
  fixed_bit_zero hm hk (by decide)

/-- The R bit is 0 in an accepted word whose opcode does not use it (R48). -/
theorem r_eq_false_of_mask (hm : c.cmd &&& o.mask = o.matchWord) (hk : o.mask.getLsbD 25 = true) :
    c.r = false :=
  fixed_bit_zero hm hk (by decide)

/-- An accepted CMD word is encoded back: each field is either an operand or 0 (R50, R57). -/
theorem encode_instr_cmd (hm : c.cmd &&& o.mask = o.matchWord) : (encode (o.instr c)).cmd = c.cmd := by
  have ha := a_eq_zero_of_mask hm
  have hd := d_eq_zero_of_mask hm
  have hb := b_eq_false_of_mask hm
  have hr := r_eq_false_of_mask hm
  rw [cmd_eq_cmdWord (opc_of_mask o hm) fun i => reserved_zero hm]
  cases o with
  | fcConsumeBit | mcEncodeBit =>
    rw [ha (by decide), hd (by decide), hr (by decide)]; rfl
  | fcReset | fcIsValid | mcConfig =>
    rw [ha (by decide), hd (by decide), hb (by decide), hr (by decide)]; rfl
  | fcBuild | pbRead | regRead =>
    rw [hd (by decide), hb (by decide), hr (by decide)]; rfl
  | fcSerialize =>
    rw [ha (by decide), hd (by decide), hb (by decide), Opcode.instr, encode, sink_bit_ofBit]
  | mcDecodeEdge =>
    rw [ha (by decide), hd (by decide), Opcode.instr, encode, direction_bit_ofBit, route_bit_ofBit]
  | pbWrite =>
    rw [hb (by decide), hr (by decide)]; rfl

/-- An accepted command is the operation of an opcode whose checks it passes (R50). -/
theorem decode_ok {i : Instr} (h : decode c = .ok i) :
    ∃ o : Opcode, o.code = c.opc ∧ c.cmd &&& o.mask = o.matchWord ∧ i = o.instr c := by
  obtain ⟨-, hd⟩ | ⟨o, -, -, hd⟩ | ⟨o, ho, hm, hd⟩ := decode_cases c <;> rw [hd] at h <;> cases h
  exact ⟨o, ho, hm, rfl⟩

/-- No two opcodes share a code (R49). -/
theorem opcode_code_injective : Function.Injective Opcode.code := by
  intro o o' h
  have := ofCode?_code o
  rw [h, ofCode?_code] at this
  exact (Option.some.inj this).symm

/-- Two commands with one CMD word are decoded alike when their opcode reads the same operands from them. -/
theorem decode_congr {c' : Command} (hcmd : c'.cmd = c.cmd)
    (hi : ∀ o : Opcode, o.code = c.opc → o.instr c' = o.instr c) : decode c' = decode c := by
  have hopc : c'.opc = c.opc := congrArg (BitVec.extractLsb' 0 8) hcmd
  rw [decode, decode, hopc, hcmd]
  cases ho : Opcode.ofCode? c.opc with
  | none => rfl
  | some o => simp only [hi o (ofCode?_eq_some ho)]

end Accepted

/-- Settles O1: each row of the table is an opcode's row, and the decoder's checks are that opcode's. -/
theorem decoderTakesItsChecksInOrder : Obligations.DecoderTakesItsChecksInOrder := by
  intro c
  constructor
  · intro hno
    have hno : ∀ o : Opcode, o.code ≠ c.opc := fun o => hno _ (opcode_row o)
    obtain ⟨-, hd⟩ | ⟨o, ho, -⟩ | ⟨o, ho, -⟩ := decode_cases c
    · exact hd
    · exact absurd ho (hno o)
    · exact absurd ho (hno o)
  · intro row hrow hopc
    obtain ⟨o, rfl⟩ := row_of_opcode hrow
    rw [← hopc]
    refine ⟨decode_of_not_mask o hopc.symm, fun hm => ⟨o.instr c, decode_of_mask o hopc.symm hm, ?_,
      encode_instr_cmd hm⟩⟩
    rw [instr_opcode]

/-- Settles O3: the word by `encode_instr_cmd`; the operand words of the two opcodes that have some are kept as they
are. -/
theorem acceptedWordsEncodeBack : Obligations.AcceptedWordsEncodeBack := by
  intro c i h
  obtain ⟨o, ho, hm, rfl⟩ := decode_ok h
  refine ⟨encode_instr_cmd hm, ?_, fun hc => ?_⟩
  · rintro (hc | hc)
    · obtain rfl := opcode_code_injective (ho.trans hc : o.code = Opcode.mcConfig.code)
      rfl
    · obtain rfl := opcode_code_injective (ho.trans hc : o.code = Opcode.mcDecodeEdge.code)
      rfl
  · obtain rfl := opcode_code_injective (ho.trans hc : o.code = Opcode.mcConfig.code)
    rfl

/-- Settles O4: the operation reads OPA and OPB for MC_CONFIG only, and OPA for MC_DECODE_EDGE. -/
theorem unusedOperandWordsAreIgnored : Obligations.UnusedOperandWordsAreIgnored := by
  refine fun c a b => ⟨fun h1 h3 => decode_congr rfl fun o ho => ?_,
    fun h3 => decode_congr rfl fun o ho => ?_⟩
  · cases o with
    | mcConfig => exact absurd ho.symm h1
    | mcDecodeEdge => exact absurd ho.symm h3
    | _ => rfl
  · obtain rfl := opcode_code_injective (ho.trans h3 : o.code = Opcode.mcDecodeEdge.code)
    rfl

/-- The operand words a command does not use are encoded as 0 (R57). -/
theorem encode_unused_operands (i : Instr) (hc : ∀ x y, i ≠ .mcConfig x y) : (encode i).opb = 0 ∧
    ((∀ dir route ts, i ≠ .mcDecodeEdge dir route ts) → (encode i).opa = 0) := by
  cases i with
  | mcConfig x y => exact absurd rfl (hc x y)
  | mcDecodeEdge dir route ts => exact ⟨rfl, fun he => absurd rfl (he dir route ts)⟩
  | _ => exact ⟨rfl, fun _ => rfl⟩

/-- Settles O5: each CMD word is the sum of its fields at their places. -/
theorem encodedWordsFollowTheAssemblersTable : Obligations.EncodedWordsFollowTheAssemblersTable := by
  refine ⟨fun b => ?_, rfl, rfl, fun len => ?_, rfl, rfl, fun h s => ⟨rfl, rfl, rfl⟩, fun b => ?_,
    fun dir ts => ⟨?_, ?_, fun route => rfl⟩, fun idx byte => ?_, fun idx => ?_, fun sel => ?_,
    encode_unused_operands⟩
  all_goals simp [encode, cmdWord_toNat, Opcode.code, Route.bit, add_right_comm]

/-- Settles O7: each word passes its opcode's mask, or has no opcode, or fails the mask. -/
theorem decodesTheSpecsWords : Obligations.DecodesTheSpecsWords :=
  ⟨decode_of_mask .fcConsumeBit rfl rfl, decode_of_mask .fcReset rfl rfl, decode_of_mask .fcIsValid rfl rfl,
    decode_of_mask .fcBuild rfl rfl, decode_of_mask .fcSerialize rfl rfl, decode_of_mask .mcConfig rfl rfl,
    decode_of_mask .mcEncodeBit rfl rfl, decode_of_mask .mcDecodeEdge rfl rfl,
    decode_of_mask .pbWrite rfl rfl, decode_of_mask .pbRead rfl rfl, decode_of_mask .regRead rfl rfl,
    rfl, decode_of_not_mask .fcConsumeBit rfl (by decide)⟩

/-! ### The pseudo-instructions -/

/-- One FC_CONSUME_BIT or MC_ENCODE_BIT per bit of a field, most significant first (R58). -/
theorem map_bitsMSB {n : Nat} (f : Bool → Instr) (v : BitVec n) (w : Nat) :
    (bitsMSB v w).map f = (List.range w).map fun j => f (v.getLsbD (w - 1 - j)) := by
  rw [bitsMSB_eq_range, List.map_map]
  rfl

/-- The k-th command of `pb.load` writes byte k at idx + k, inside the A field (R58). -/
theorem expand_load_getElem? (p : Preamble) {idx : Byte} {bytes : List Byte}
    (h : idx.toNat + bytes.length ≤ 256) {k : Nat} (hk : k < bytes.length) :
    ∃ a : Byte, a.toNat = idx.toNat + k ∧
      (AsmLine.expand p (.load idx bytes))[k]? = some (.pbWrite a bytes[k]) :=
  ⟨BitVec.ofNat 8 (idx.toNat + k), ofNat_byte_toNat (by omega), by simp [AsmLine.expand, hk]⟩

/-- The default sensitivity is floor(3·h/5), which fits its operand word (R58). -/
theorem default_sensitivity_toNat (h : DWord) :
    (BitVec.ofNat 64 (3 * h.toNat / 5)).toNat = 3 * h.toNat / 5 := by
  have := h.isLt
  rw [BitVec.toNat_ofNat]
  omega

/-- Settles O6: a field's bits by their places, `pb.load` by its elements, the default sensitivity by its value. -/
theorem pseudoInstructionsExpand : Obligations.PseudoInstructionsExpand := by
  refine fun p => ⟨fun v => map_bitsMSB _ v 8, fun v => map_bitsMSB _ v 32,
    fun v => map_bitsMSB _ v (8 * p.bytes),
    fun idx bytes h => ⟨List.length_mapIdx, fun k hk => expand_load_getElem? p h hk⟩,
    fun v => map_bitsMSB _ v 8, fun h => ⟨_, rfl, ?_⟩⟩
  rw [default_sensitivity_toNat]
  omega

/-- FC_CONSUME_BIT where the bit does not overrun (R62). -/
theorem exec_fcConsumeBit_of_no_overrun {s : State} (h : s.fc.overrun = false) (b : Bool) :
    exec (.fcConsumeBit b) s = .next (State.respond
      (boolResult (s.fc.consumeBit s.preamble b).isDone)
      { s with fc := s.fc.consumeBit s.preamble b }) := by
  rw [exec, execFcConsumeBit, if_neg (by simp [h])]

/-- A list of FC_CONSUME_BITs none of which overruns is the bit sequence fed to the Frame. -/
theorem issue_consumeBits_of_no_overrun (bits : List Bool) (s : State) (hb : s.blocked = none)
    (hv : ∀ n < bits.length, (s.fc.consumeBits s.preamble (bits.take n)).overrun = false) :
    ∃ outputs, Env.issue (bits.map .fcConsumeBit) s =
      some { s with fc := s.fc.consumeBits s.preamble bits, outputs := outputs } := by
  induction bits generalizing s with
  | nil => exact ⟨s.outputs, rfl⟩
  | cons b bits ih =>
    have h0 : s.fc.overrun = false := hv 0 (by simp)
    obtain ⟨outputs, h⟩ := ih (State.respond (boolResult (s.fc.consumeBit s.preamble b).isDone)
      { s with fc := s.fc.consumeBit s.preamble b }) hb fun n hn => hv (n + 1) (by simpa using hn)
    refine ⟨outputs, ?_⟩
    rw [List.map_cons, Env.issue, exec_fcConsumeBit_of_no_overrun h0]
    exact (if_pos hb).trans h

/-- No bit of a size byte overruns: BITPOS stays below 8 (R21, R60). -/
theorem Frame.overrun_in_size_byte (p : Preamble) {f : Frame} (h : f.stage = .size)
    (hb : f.bitpos = 0) (bs : List Bool) (hn : bs.length < 8) :
    (f.consumeBits p bs).overrun = false := by
  have hpos : f.bitpos.toNat = 0 := by rw [hb]; rfl
  rw [Frame.consumeBits_size p f bs h (by omega), Frame.overrun]
  simp only [h, decide_eq_false_iff_not, not_le]
  rw [bitpos_add (by omega)]
  omega

/-- Settles O37: no bit of the byte overruns, and the eight together are the size field. -/
theorem sizeByteOpensOrRejectsTheFrame : Obligations.SizeByteOpensOrRejectsTheFrame := by
  intro s v hst hpos hb
  obtain ⟨outputs, h⟩ := issue_consumeBits_of_no_overrun (bitsMSB v 8) s hb fun n hn =>
    Frame.overrun_in_size_byte s.preamble hst hpos _ (by simp at hn ⊢; omega)
  have he := Frame.consumeBits_size_byte s.preamble s.fc v hst hpos
  exact ⟨_, h, fun hv => he.trans (if_neg hv), fun hv => he.trans (if_pos hv)⟩

/-! ### The edge decoder -/

section Edge

variable {s : State} {m : Mlc} {ts : DWord}

theorem Mlc.classify_of_unsynchronized (h : m.syncV = false) : m.classify ts = .sync := by
  rw [Mlc.classify, h]; rfl

theorem Mlc.classify_of_synchronized (h : m.syncV = true) :
    m.classify ts = EdgeClass.ofMultiplier (m.multiplier (m.elapsed ts)) := by
  rw [Mlc.classify, if_pos h]

/-- An edge is out of order exactly when it comes before LAST_TS while synchronized (R73). -/
theorem Mlc.outOfOrder_of_synchronized (h : m.syncV = true) :
    m.outOfOrder ts = decide (m.elapsed ts < 0) := by
  rw [Mlc.outOfOrder, h, Bool.true_and, Mlc.elapsed]
  exact decide_eq_decide.2 (by omega)

/-- An edge in order that is no DESYNC becomes the reference, and changes nothing else (R73). -/
theorem Mlc.afterEdge_of_reference (hc : m.classify ts ≠ .desync) (ho : m.outOfOrder ts = false) :
    m.afterEdge ts = { m with syncV := true, lastTs := ts } := by
  rw [Mlc.afterEdge, ho, Bool.or_false]
  split
  · next h => exact absurd h hc
  all_goals rfl

/-- A DESYNC drops the reference and keeps LAST_TS (R73). -/
theorem Mlc.afterEdge_of_desync (hc : m.classify ts = .desync) :
    m.afterEdge ts = { m with syncV := false, ordErr := m.ordErr || m.outOfOrder ts } := by
  rw [Mlc.afterEdge, hc]

variable (hc : s.mlc.cfgOk = true) (hz : s.mlc.syncV = true → s.mlc.halfPeriod ≠ 0)
  (dir : Direction)
include hc hz

/-- An edge that carries a bit, on route 0 (R73). -/
theorem exec_mcDecodeEdge_channel (hb : (s.mlc.classify ts).carriesBit = true) :
    exec (.mcDecodeEdge dir .channel ts) s = .next { s with
      mlc := s.mlc.afterEdge ts
      outputs := s.outputs ++ [.bit dir.bit, .response ⟨.ok,
        edgeResult s.fc.isDone (s.mlc.classify ts) dir.bit⟩] } := by
  rw [exec, execMcDecodeEdge, if_neg (by simp [hc]), if_neg (not_and.2 hz), if_pos hb]
  simp [State.emit, State.respond]

/-- An edge that carries a bit, on route 1 (R73). -/
theorem exec_mcDecodeEdge_frame (hb : (s.mlc.classify ts).carriesBit = true)
    (hv : s.fc.overrun = false) :
    exec (.mcDecodeEdge dir .frame ts) s = .next { s with
      mlc := s.mlc.afterEdge ts
      fc := s.fc.consumeBit s.preamble dir.bit
      outputs := s.outputs ++ [.response ⟨.ok,
        edgeResult (s.fc.consumeBit s.preamble dir.bit).isDone (s.mlc.classify ts) dir.bit⟩] } := by
  rw [exec, execMcDecodeEdge, if_neg (by simp [hc]), if_neg (not_and.2 hz), if_pos hb]
  simp [hv, State.emit, State.respond]

/-- An edge that carries no bit, on either route (R73). -/
theorem exec_mcDecodeEdge_no_bit (hb : (s.mlc.classify ts).carriesBit = false) (route : Route) :
    exec (.mcDecodeEdge dir route ts) s = .next { s with
      mlc := s.mlc.afterEdge ts
      outputs := s.outputs ++ [.response ⟨.ok,
        edgeResult s.fc.isDone (s.mlc.classify ts) dir.bit⟩] } := by
  rw [exec, execMcDecodeEdge, if_neg (by simp [hc]), if_neg (not_and.2 hz), if_neg (by simp [hb])]
  rfl

end Edge

/-- MC_DECODE_EDGE's RESULT for a class that carries its bit (R54). -/
theorem edgeResult_of_bit {cls : EdgeClass} (h : cls.carriesBit = true) (done bit : Bool) :
    edgeResult done cls bit =
      BitVec.ofNat 64 (1 + 4 * cls.code.toNat + 2 * bit.toNat + 16 * done.toNat) := by
  rw [edgeResult_eq, h, Bool.and_true, Bool.toNat_true, add_right_comm 1]

/-- MC_DECODE_EDGE's RESULT for a class that carries no bit (R54). -/
theorem edgeResult_of_no_bit {cls : EdgeClass} (h : cls.carriesBit = false) (done bit : Bool) :
    edgeResult done cls bit = BitVec.ofNat 64 (4 * cls.code.toNat + 16 * done.toNat) := by
  rw [edgeResult_eq, h, Bool.and_false]; simp

/-- Settles O44: an unsynchronized edge is SYNC, in order, and carries its bit. -/
theorem unsynchronizedEdgeGivesItsBit : Obligations.UnsynchronizedEdgeGivesItsBit := by
  intro dir ts s hcfg hsync
  have hz : s.mlc.syncV = true → s.mlc.halfPeriod ≠ 0 := by simp [hsync]
  have hcls : s.mlc.classify ts = .sync := Mlc.classify_of_unsynchronized hsync
  have hbit : (s.mlc.classify ts).carriesBit = true := by rw [hcls]; rfl
  have hafter := Mlc.afterEdge_of_reference (m := s.mlc) (ts := ts) (by simp [hcls])
    (by simp [Mlc.outOfOrder, hsync])
  have hres := edgeResult_of_bit hbit
  refine ⟨?_, fun hv => ?_⟩
  · rw [exec_mcDecodeEdge_channel hcfg hz dir hbit, hafter, hres, hcls]; rfl
  · rw [exec_mcDecodeEdge_frame hcfg hz dir hbit hv, hafter, hres, hcls]; rfl

/-- A synchronized edge that is no DESYNC is in order and moves LAST_TS only (R73). -/
theorem Mlc.afterEdge_of_synchronized {m : Mlc} {ts : DWord} (hH : m.halfPeriod ≠ 0)
    (hs : m.syncV = true) (hc : m.classify ts ≠ .desync) :
    m.afterEdge ts = { m with lastTs := ts } := by
  have ho : m.outOfOrder ts = false :=
    Bool.eq_false_iff.2 fun h => hc (Mlc.classify_of_outOfOrder hH h)
  rw [Mlc.afterEdge_of_reference hc ho, ← hs]

/-- Settles O45: the band of the distance is the edge's class, and the class says what the edge does. -/
theorem synchronizedEdgeFollowsTheClassifier : Obligations.SynchronizedEdgeFollowsTheClassifier := by
  rintro dir route ts s _ _ _ hcfg hsync hH rfl rfl rfl
  have hz : s.mlc.syncV = true → s.mlc.halfPeriod ≠ 0 := fun _ => hH
  have hcls := Mlc.classify_of_synchronized (ts := ts) hsync
  refine ⟨fun hd => ?_, fun hk => ?_, fun hd => ?_⟩
  · have hc : s.mlc.classify ts = .desync := hcls.trans ((Mlc.class_desync_iff hH _).2 hd)
    have hbit : (s.mlc.classify ts).carriesBit = false := by rw [hc]; rfl
    rw [exec_mcDecodeEdge_no_bit hcfg hz dir hbit, Mlc.afterEdge_of_desync hc,
      Mlc.outOfOrder_of_synchronized hsync, edgeResult_of_no_bit hbit, hc]
    rfl
  · have hc : s.mlc.classify ts = .skip := hcls.trans ((Mlc.class_skip_iff hH _).2 hk)
    have hbit : (s.mlc.classify ts).carriesBit = false := by rw [hc]; rfl
    rw [exec_mcDecodeEdge_no_bit hcfg hz dir hbit,
      Mlc.afterEdge_of_synchronized hH hsync (by simp [hc]), edgeResult_of_no_bit hbit, hc]
    rfl
  · have hc : s.mlc.classify ts = .data := hcls.trans ((Mlc.class_data_iff hH _).2 hd)
    have hbit : (s.mlc.classify ts).carriesBit = true := by rw [hc]; rfl
    have hafter := Mlc.afterEdge_of_synchronized hH hsync (ts := ts) (by simp [hc])
    refine ⟨?_, ?_⟩
    · rintro rfl
      rw [exec_mcDecodeEdge_channel hcfg hz dir hbit, hafter, edgeResult_of_bit hbit, hc]
      rfl
    · rintro rfl hv
      rw [exec_mcDecodeEdge_frame hcfg hz dir hbit hv, hafter, edgeResult_of_bit hbit, hc]
      rfl

/-! ### What a step does with a command word -/

/-- Settles O9: the rejected word is taken and its status raised. -/
theorem rejectedWordsAreAnswered : Obligations.RejectedWordsAreAnswered := by
  intro s c rest e hb hi hd
  rw [step_command hb hi, runCommand, hd]
  cases e <;> rfl

section Completion

variable {s : State}

/-- MC_CONFIG always answers: each of its checks responds (R68). -/
theorem exec_mcConfig_completes (x y : DWord) : ∃ t, exec (.mcConfig x y) s = .next t := by
  rw [exec, execMcConfig]
  split_ifs <;> exact ⟨_, rfl⟩

/-- FC_SERIALIZE always answers: it responds, or it runs the encoder (R66). -/
theorem exec_fcSerialize_completes (sink : Sink) : ∃ t, exec (.fcSerialize sink) s = .next t := by
  rw [exec, execFcSerialize]
  split_ifs
  · exact ⟨_, rfl⟩
  · exact ⟨_, rfl⟩
  · cases sink <;> exact ⟨_, rfl⟩

/-- MC_DECODE_EDGE answers when no bit overruns and a configured H is not 0 (R21, R24). -/
theorem exec_mcDecodeEdge_completes (dir : Direction) (route : Route) (ts : DWord)
    (hv : s.fc.overrun = false) (hz : s.mlc.cfgOk = true → s.mlc.halfPeriod ≠ 0) :
    ∃ t, exec (.mcDecodeEdge dir route ts) s = .next t := by
  cases hc : s.mlc.cfgOk with
  | false => exact ⟨_, exec_of_not_configured hc (.inr (.inl ⟨dir, route, ts, rfl⟩))⟩
  | true =>
    have hz : s.mlc.syncV = true → s.mlc.halfPeriod ≠ 0 := fun _ => hz hc
    cases hb : (s.mlc.classify ts).carriesBit with
    | false => exact ⟨_, exec_mcDecodeEdge_no_bit hc hz dir hb route⟩
    | true =>
      cases route with
      | channel => exact ⟨_, exec_mcDecodeEdge_channel hc hz dir hb⟩
      | frame => exact ⟨_, exec_mcDecodeEdge_frame hc hz dir hb hv⟩

/-- Under the invariant every command answers (R21, R24, R53). -/
theorem exec_completes (hs : s.Inv) (i : Instr) : ∃ t, exec i s = .next t := by
  have hv := Frame.overrun_eq_false hs.fc
  cases i with
  | fcConsumeBit b => exact ⟨_, exec_fcConsumeBit_of_no_overrun hv b⟩
  | fcReset | fcIsValid => exact ⟨_, rfl⟩
  | fcBuild len => rw [exec, execFcBuild]; split_ifs <;> exact ⟨_, rfl⟩
  | fcSerialize sink => exact exec_fcSerialize_completes sink
  | mcConfig x y => exact exec_mcConfig_completes x y
  | mcEncodeBit b => rw [exec, execMcEncodeBit]; split_ifs <;> exact ⟨_, rfl⟩
  | mcDecodeEdge dir route ts => exact exec_mcDecodeEdge_completes dir route ts hv hs.mlc.configured
  | pbWrite idx byte => rw [exec, execPbWrite]; split <;> exact ⟨_, rfl⟩
  | pbRead idx => rw [exec, execPbRead]; split <;> exact ⟨_, rfl⟩
  | regRead sel => rw [exec, execRegRead]; split <;> exact ⟨_, rfl⟩

/-- Under the invariant every command word is answered, a rejected one too (R50). -/
theorem runCommand_completes (hs : s.Inv) (c : Command) : ∃ t, runCommand c s = .next t := by
  rw [runCommand]
  cases decode c with
  | error e => exact ⟨_, rfl⟩
  | ok i => exact exec_completes hs i

/-- A command is taken from the inputs, and nothing else changes (R97). -/
theorem fetch_command_eq {c : Command} {s' : State} (h : s.fetch = .command c s') :
    ∃ rest, s' = { s with inputs := rest } := by
  rw [State.fetch] at h
  split at h <;> split at h <;> cases h
  exact ⟨_, rfl⟩

end Completion

/-- Settles O14: of what a step can fetch, a command answers under the invariant, a stray completion faults, and the
rest answers always. -/
theorem stepStopsOnlyOnAStrayCompletion : Obligations.StepStopsOnlyOnAStrayCompletion := by
  intro s hs
  rw [step]
  refine ⟨fun hk => ?_, fun hk => ?_⟩
  · cases hf : s.fetch with
    | wait => exact ⟨_, rfl⟩
    | command c s' =>
      obtain ⟨rest, rfl⟩ := fetch_command_eq hf
      exact runCommand_completes (hs.withInputs rest) c
    | resume ops s' => exact ⟨_, rfl⟩
    | reset s' => exact ⟨_, rfl⟩
    | stray => exact absurd hf hk
  · rw [not_not.1 hk]

/-! ### The wire stream -/

/-- Settles O27: `bitsMSB` gives each field's bits by their places. -/
theorem wireStreamIsTheFrameMsbFirst : Obligations.WireStreamIsTheFrameMsbFirst := by
  intro p f
  simp only [msbFirst_eq_bitsMSB, Frame.wireStream, Frame.payload, Memory.bytes, List.flatMap_def,
    List.map_map, Function.comp_def]

/-- Settles O28, by the length of the wire stream and SIZE ≤ 255. -/
theorem wireStreamLength : Obligations.WireStreamLength := by
  intro p f
  have hs := f.size.isLt
  rw [wireStream_length]
  omega

end Sys2Proof.Machine

/-! Obligations of the frame family: the bit-level round trip (O33), ConsumeBit and its command (O20, O21), the
checksum (O23, O25, O34), FC_RESET and FC_BUILD (O24, O26), and FC_SERIALIZE with its two sinks (O29 to O31). -/

namespace Sys2Proof.Machine

/-! ### The receiver: a wire stream fed to a fresh Frame -/

section Receive

variable (p : Preamble)

/-- The first bits of two fields, one after the other: some bits of the first, or all of it and some of the
second. -/
theorem Frame.consumeBits_take_append (f : Frame) (xs ys : List Bool) (n : Nat) :
    f.consumeBits p ((xs ++ ys).take n) =
      if n < xs.length then f.consumeBits p (xs.take n)
      else (f.consumeBits p xs).consumeBits p (ys.take (n - xs.length)) := by
  split
  · next h => rw [List.take_append_of_le_length h.le]
  · next h => rw [List.take_append, List.take_of_length_le (not_lt.1 h), Frame.consumeBits_append]

/-- Fewer bits than a nonzero preamble constant has leave a fresh Frame in PREAMBLE (R67). -/
theorem Frame.consumeBits_preamble_stage (hc : p.const ≠ 0) {n : Nat} (hn : n < 8 * p.bytes) :
    (Frame.empty.consumeBits p ((bitsMSB p.const (8 * p.bytes)).take n)).stage = .preamble := by
  have hlen : ((bitsMSB p.const (8 * p.bytes)).take n).length = n := by simp [hn.le]
  rw [Frame.consumeBits_preamble p Frame.empty _ rfl fun k hk => ?_]
  · rfl
  · rw [hlen] at hk
    rw [List.take_take, min_eq_left (by omega)]
    exact preamble_no_early_match p hc (by omega)

variable {p} {f : Frame}

/-- What a fresh Frame holds after the preamble and the size of the frame f. -/
def Frame.sizedFor (p : Preamble) (f : Frame) : Frame :=
  { stage := .data, pre := p.const, size := f.size, csum := 0, bitpos := 0, pbuf := [] }

/-- A frame with a payload opens its own DATA stage (R60). -/
theorem Frame.consumeBits_size_field (hs : f.size ≠ 0) :
    Frame.consumeBits p { Frame.empty with pre := p.const, stage := .size } (bitsMSB f.size 8) =
      f.sizedFor p := by
  rw [Frame.consumeBits_size_byte p _ f.size rfl rfl, if_neg hs]
  rfl

/-- The payload field fills PBUF with the payload of f (R60). -/
theorem Frame.consumeBits_payload_field (hs : f.size ≠ 0) :
    ∃ m : Memory, m.bytes f.size.toNat = f.payload ∧
      (f.sizedFor p).consumeBits p (f.payload.flatMap fun v => bitsMSB v 8) =
        { f.sizedFor p with pbuf := m, stage := .checksum, bitpos := 0 } := by
  have hlen : f.payload.length = f.size.toNat := Memory.bytes_length ..
  have hpos : f.size.toNat ≠ 0 := mt (eq_zero_iff_toNat _).2 hs
  obtain ⟨m, -, hr, he⟩ := Frame.consumeBits_payload p (f.sizedFor p) f.payload 0 rfl Memory.wf_nil
    (List.ne_nil_of_length_pos (by omega)) (by rw [Nat.zero_add]; exact hlen) rfl
  refine ⟨m, ?_, he⟩
  rw [← hlen]
  exact Memory.bytes_of_read fun i hi => (hr i).trans (if_pos ⟨i.zero_le, hlen ▸ hi⟩)

/-- Fewer bits than the payload has leave the Frame in DATA (R60). -/
theorem Frame.consumeBits_sizedFor_stage {bs : List Bool} (h : bs.length < 8 * f.size.toNat) :
    ((f.sizedFor p).consumeBits p bs).stage = .data :=
  (Frame.consumeBits_data p (f.sizedFor p) bs rfl (by simpa [Frame.sizedFor] using h)).1

theorem payloadBits_length (bytes : List Byte) :
    (bytes.flatMap fun v => bitsMSB v 8).length = 8 * bytes.length := by
  simp [List.length_flatMap, Nat.mul_comm]

variable (hc : p.const ≠ 0) (hs : f.size ≠ 0)
include hc hs

/-- A wire stream fed to a fresh Frame gives its size, payload and checksum, and ends in DONE (R67). -/
theorem Frame.consumeBits_wireStream :
    ∃ m : Memory, m.bytes f.size.toNat = f.payload ∧
      Frame.empty.consumeBits p (f.wireStream p) = ⟨.done, p.const, f.size, f.csum, 0, m⟩ := by
  obtain ⟨m, hm, hdata⟩ := Frame.consumeBits_payload_field (p := p) hs
  refine ⟨m, hm, ?_⟩
  rw [Frame.wireStream, Frame.consumeBits_append, Frame.consumeBits_append, Frame.consumeBits_append,
    Frame.consumeBits_preamble_const p hc, Frame.consumeBits_size_field hs, hdata,
    Frame.consumeBits_checksum_word p _ f.csum rfl rfl]
  rfl

/-- The stage after the first n bits of a wire stream: each stage lasts for exactly its own bits (R67). -/
theorem Frame.consumeBits_wireStream_stage (n : Nat) :
    (Frame.empty.consumeBits p ((f.wireStream p).take n)).stage =
      if n < 8 * p.bytes then .preamble
      else if n < 8 * p.bytes + 8 then .size
      else if n < 8 * p.bytes + 8 + 8 * f.size.toNat then .data
      else if n < (f.wireStream p).length then .checksum
      else .done := by
  have hdatalen : (f.payload.flatMap fun v => bitsMSB v 8).length = 8 * f.size.toNat := by
    rw [payloadBits_length]; exact congrArg _ (Memory.bytes_length ..)
  obtain ⟨m, -, hdata⟩ := Frame.consumeBits_payload_field (p := p) hs
  obtain ⟨m', -, hall⟩ := Frame.consumeBits_wireStream hc hs
  have hlen := wireStream_length p f
  by_cases hdone : (f.wireStream p).length ≤ n
  · rw [List.take_of_length_le hdone, hall, if_neg (by omega), if_neg (by omega), if_neg (by omega),
      if_neg (by omega)]
  rw [if_pos (not_le.1 hdone), Frame.wireStream, List.append_assoc, List.append_assoc,
    Frame.consumeBits_take_append, Frame.consumeBits_preamble_const p hc, Frame.consumeBits_take_append,
    Frame.consumeBits_size_field hs, Frame.consumeBits_take_append, hdata, bitsMSB_length,
    bitsMSB_length, hdatalen]
  by_cases hpre : n < 8 * p.bytes
  · rw [if_pos hpre, if_pos hpre, Frame.consumeBits_preamble_stage p hc hpre]
  rw [if_neg hpre, if_neg hpre]
  by_cases hsize : n < 8 * p.bytes + 8
  · rw [if_pos hsize, if_pos (by omega), Frame.consumeBits_size p _ _ rfl (by simp [Frame.empty]; omega)]
  rw [if_neg hsize, if_neg (by omega)]
  by_cases hpay : n < 8 * p.bytes + 8 + 8 * f.size.toNat
  · rw [if_pos hpay, if_pos (by omega), Frame.consumeBits_sizedFor_stage]
    rw [List.length_take]; omega
  · rw [if_neg hpay, if_neg (by omega), Frame.consumeBits_checksum p _ _ rfl (by simp; omega)]

end Receive

/-! ### The sender: a payload written and built -/

/-- FC_BUILD of a length other than 0 (R65). -/
theorem exec_fcBuild_of_ne_zero {len : Byte} (h : len ≠ 0) (s : State) :
    exec (.fcBuild len) s = .next (State.respond 0 { s with
      fc := ⟨.done, s.preamble.const, len, crc32 (s.fc.pbuf.bytes len.toNat), 0, s.fc.pbuf⟩ }) := by
  rw [exec, execFcBuild, if_neg h]

/-- PB_WRITE of a payload and FC_BUILD make its DONE frame (R65, R96). -/
theorem issue_payload_build {payload : List Byte} {x : State} (h1 : 1 ≤ payload.length)
    (h255 : payload.length ≤ 255) (hw : x.fc.pbuf.wf) (hb : x.blocked = none) :
    ∃ (f : Frame) (outputs : List Output), f.stage = .done ∧ f.size.toNat = payload.length ∧
      f.payload = payload ∧ f.csum = crc32 payload ∧
      Env.issue (payload.mapIdx (fun k byte => .pbWrite (BitVec.ofNat 8 k) byte)
        ++ [.fcBuild (BitVec.ofNat 8 payload.length)]) x =
          some { x with fc := f, outputs := outputs } := by
  have hlen : (BitVec.ofNat 8 payload.length).toNat = payload.length := ofNat_byte_toNat (by omega)
  have hne : BitVec.ofNat 8 payload.length ≠ 0 := mt (eq_zero_iff_toNat _).1 (by omega)
  obtain ⟨m, outputs, -, hr, he⟩ := issue_pbWrites payload 0 x hw hb (by omega)
  have hm : m.bytes (BitVec.ofNat 8 payload.length).toNat = payload := by
    rw [hlen]
    exact Memory.bytes_of_read fun i hi => (hr i).trans (if_pos ⟨i.zero_le, by omega⟩)
  refine ⟨⟨.done, x.preamble.const, BitVec.ofNat 8 payload.length, crc32 payload, 0, m⟩,
    outputs ++ [.response ⟨.ok, 0⟩], rfl, hlen, hm, rfl, ?_⟩
  rw [issue_append]
  refine (congrArg (Option.bind · _) he).trans ?_
  rw [Option.bind_some, Env.issue, exec_fcBuild_of_ne_zero hne]
  dsimp only
  rw [hm]
  exact if_pos hb

/-- isDone is STAGE = DONE (R60). -/
theorem Frame.isDone_iff (f : Frame) : f.isDone = true ↔ f.stage = .done := by simp [Frame.isDone]

/-- FC_SERIALIZE with sink 0 in DONE (R66). -/
theorem exec_fcSerialize_bits_of_done {s : State} (h : s.fc.stage = .done) :
    exec (.fcSerialize .bits) s =
      .next ((s.emitAll ((s.fc.wireStream s.preamble).map .bit)).respond 0) := by
  rw [exec, execFcSerialize, if_neg (by simp),
    if_neg (by simp [(Frame.isDone_iff _).2 h])]

/-- A frame is valid when it is DONE with its payload's checksum (R64). -/
theorem Frame.isValid_eq_true_iff (f : Frame) :
    f.isValid = true ↔ f.stage = .done ∧ crc32 f.payload = f.csum := by
  rw [Frame.isValid, Bool.and_eq_true, Frame.isDone_iff, beq_iff_eq]

/-- FC_IS_VALID answers validity (R64). -/
theorem exec_fcIsValid (s : State) :
    exec .fcIsValid s = .next (s.respond (boolResult s.fc.isValid)) := rfl

/-- Settles O33: the sender's frame is built from the payload, and its wire stream fed to a fresh Frame gives that
frame back. -/
theorem bitLevelRoundTrip : Obligations.BitLevelRoundTrip := by
  intro payload x y h1 h255 hc hw hbx hby hp hy
  obtain ⟨f, outputs, hdone, hsize, hpay, hcsum, hx⟩ := issue_payload_build h1 h255 hw hbx
  have hs : f.size ≠ 0 := mt (eq_zero_iff_toNat _).1 (by omega)
  have hy : y.fc = Frame.empty := hy
  have hrecv : ∀ bits, ∃ outs, Env.issue (bits.map .fcConsumeBit) y =
      some { y with fc := Frame.empty.consumeBits x.preamble bits, outputs := outs } := fun bits => by
    simpa only [hy, hp] using issue_consumeBits bits y (hy ▸ Frame.empty_inv _) hby
  obtain ⟨m, hm, hall⟩ := Frame.consumeBits_wireStream hc hs
  refine ⟨_, _, f.wireStream x.preamble, hx, exec_fcSerialize_bits_of_done hdone, rfl,
    fun n _ => ?_, ?_⟩
  · obtain ⟨outs, h⟩ := hrecv ((f.wireStream x.preamble).take n)
    exact ⟨_, h, hsize ▸ Frame.consumeBits_wireStream_stage hc hs n⟩
  · obtain ⟨outs, h⟩ := hrecv (f.wireStream x.preamble)
    rw [hall] at h
    have hpay' : m.bytes f.size.toNat = payload := hm.trans hpay
    have hvalid : Frame.isValid ⟨.done, x.preamble.const, f.size, f.csum, 0, m⟩ = true :=
      (Frame.isValid_eq_true_iff _).2 ⟨rfl, (congrArg crc32 hpay').trans hcsum.symm⟩
    refine ⟨_, _, h, rfl, hsize, hpay', hcsum, exec_fcIsValid _, ?_⟩
    rw [State.respond_outputs, hvalid]
    rfl

/-! ### ConsumeBit, stage by stage -/

section ConsumeBit

variable (p : Preamble) (b : Bool) {f : Frame}

/-- ConsumeBit in SIZE before the last bit of the field (R60). -/
theorem Frame.consumeBit_size_within (h : f.stage = .size) (h8 : f.bitpos.toNat + 1 ≠ 8) :
    f.consumeBit p b = { f with size := shiftIn f.size b, bitpos := f.bitpos + 1 } := by
  rw [Frame.consumeBit_of_size p h, Frame.consumeSize, if_neg h8]

/-- ConsumeBit at the last bit of SIZE (R60): a zero size resets the Frame, any other opens DATA. -/
theorem Frame.consumeBit_size_last (h : f.stage = .size) (h8 : f.bitpos.toNat + 1 = 8) :
    f.consumeBit p b = if shiftIn f.size b = 0 then Frame.empty
      else { f with size := shiftIn f.size b, pbuf := [], stage := .data, bitpos := 0 } := by
  rw [Frame.consumeBit_of_size p h, Frame.consumeSize, if_pos h8]

/-- ConsumeBit in CHECKSUM (R60). -/
theorem Frame.consumeBit_checksum (h : f.stage = .checksum) :
    f.consumeBit p b = if f.bitpos.toNat + 1 = 32
      then { f with csum := shiftIn f.csum b, stage := .done, bitpos := 0 }
      else { f with csum := shiftIn f.csum b, bitpos := f.bitpos + 1 } := by
  rw [Frame.consumeBit_of_checksum p h]; rfl

variable (hv : f.overrun = false)
include hv

theorem Frame.bitpos_lt_of_size (h : f.stage = .size) : f.bitpos.toNat < 2047 := by
  simpa [Frame.overrun, h] using hv

theorem Frame.bitpos_lt_of_data (h : f.stage = .data) : f.bitpos.toNat < 2040 := by
  simpa [Frame.overrun, h] using hv

theorem Frame.bitpos_lt_of_checksum (h : f.stage = .checksum) : f.bitpos.toNat < 2047 := by
  simpa [Frame.overrun, h] using hv

end ConsumeBit

/-- Settles O20: ConsumeBit's equation in each stage, with the shifts as numbers. -/
theorem consumeBitFollowsTheStages : Obligations.ConsumeBitFollowsTheStages := by
  rintro p b f _ hw hv rfl
  have hsize : (shiftIn f.size b).toNat = (2 * f.size.toNat + b.toNat) % 256 := shiftIn_toNat ..
  refine ⟨fun h => ?preamble, fun h h8 => ?sizeWithin, fun h h8 h0 => ?sizeZero,
    fun h h8 h0 => ?sizeNonzero, fun h => ?data, fun h => ?checksum, fun h => Frame.consumeBit_of_done p h b,
    Frame.isDone_iff _⟩
  case preamble =>
    have hpre := shiftPre_toNat p f.pre b
    rw [Frame.consumeBit_preamble p h]
    by_cases hm : shiftPre p f.pre b = p.const
    · rw [if_pos hm]
      exact ⟨hpre, fun _ => ⟨rfl, rfl⟩, absurd hm, rfl, rfl, fun _ => rfl⟩
    · rw [if_neg hm]
      exact ⟨hpre, (absurd · hm), fun _ => ⟨h, rfl⟩, rfl, rfl, fun _ => rfl⟩
  case sizeWithin =>
    rw [Frame.consumeBit_size_within p b h h8]
    exact ⟨h, hsize, bitpos_succ (Frame.bitpos_lt_of_size hv h), rfl, rfl, fun _ => rfl⟩
  case sizeZero =>
    rw [Frame.consumeBit_size_last p b h h8, if_pos ((eq_zero_iff_toNat _).2 (hsize.trans h0))]
    exact ⟨rfl, rfl, rfl, rfl, rfl, fun _ => rfl⟩
  case sizeNonzero =>
    rw [Frame.consumeBit_size_last p b h h8,
      if_neg fun hz => h0 (hsize ▸ (eq_zero_iff_toNat _).1 hz)]
    exact ⟨rfl, hsize, rfl, rfl, rfl, fun _ => rfl⟩
  case data =>
    have hbyte : ((f.pbuf.write (f.bitpos.toNat / 8)
        (shiftIn (f.pbuf.read (f.bitpos.toNat / 8)) b)).read (f.bitpos.toNat / 8)).toNat =
        (2 * (f.pbuf.read (f.bitpos.toNat / 8)).toNat + b.toNat) % 256 := by
      rw [Memory.read_write hw.1, if_pos rfl]; exact shiftIn_toNat ..
    have hother (i : Nat) (hi : i ≠ f.bitpos.toNat / 8) :=
      (Memory.read_write hw.1 _ (shiftIn (f.pbuf.read (f.bitpos.toNat / 8)) b) i).trans (if_neg hi)
    have hlt := Frame.bitpos_lt_of_data hv h
    rw [Frame.consumeBit_data p h]
    by_cases he : f.bitpos.toNat + 1 = 8 * f.size.toNat
    · dsimp only
      rw [if_pos he]
      exact ⟨hbyte, hother, fun _ => ⟨rfl, rfl⟩, absurd he, rfl, rfl, rfl⟩
    · dsimp only
      rw [if_neg he]
      exact ⟨hbyte, hother, (absurd · he), fun _ => ⟨h, bitpos_succ (by omega)⟩, rfl, rfl, rfl⟩
  case checksum =>
    have hcsum := shiftIn_toNat f.csum b
    have hlt := Frame.bitpos_lt_of_checksum hv h
    rw [Frame.consumeBit_checksum p b h]
    by_cases he : f.bitpos.toNat + 1 = 32
    · rw [if_pos he]
      exact ⟨hcsum, fun _ => ⟨rfl, rfl⟩, absurd he, rfl, rfl, fun _ => rfl⟩
    · rw [if_neg he]
      exact ⟨hcsum, (absurd · he), fun _ => ⟨h, bitpos_succ hlt⟩, rfl, rfl, fun _ => rfl⟩

/-- Settles O21: the command is ConsumeBit, guarded against an overrun. -/
theorem consumeBitCommandAnswersIsDone : Obligations.ConsumeBitCommandAnswersIsDone := by
  refine fun b s => ⟨fun hv => ?_, fun hv => ?_⟩
  · rw [exec_fcConsumeBit_of_no_overrun hv, boolResult_eq]
    simp only [Frame.isDone_iff]
    rfl
  · rw [exec, execFcConsumeBit, if_pos hv]

/-! ### FC_RESET -/

/-- The decoder's two answers for an opcode with no operand field: its one word is the
command, any other a refusal (R50). -/
theorem decode_of_fixed_word {o : Opcode} (hm : o.mask = BitVec.allOnes 32) {c : Command}
    (hc : c.opc = o.code) :
    (c.cmd = o.matchWord → decode c = .ok (o.instr c)) ∧
      (c.cmd ≠ o.matchWord → decode c = .error .reservedField) := by
  have hand : c.cmd &&& o.mask = c.cmd := by rw [hm, BitVec.and_allOnes]
  exact ⟨fun h => decode_of_mask o hc (hand.trans h),
    fun h => decode_of_not_mask o hc fun he => h (hand.symm.trans he)⟩

/-- Settles O24: the opcode's one word, and FC_RESET's meaning. -/
theorem frameResetClearsTheFrameOnly : Obligations.FrameResetClearsTheFrameOnly :=
  ⟨fun _ hc => decode_of_fixed_word (o := .fcReset) rfl hc, fun _ => rfl⟩

/-! ### The checksum and FC_IS_VALID -/

/-- Settles O23: CRC32 computes the check values. -/
theorem crc32HasItsCheckValues : Obligations.Crc32HasItsCheckValues := by
  unfold Obligations.Crc32HasItsCheckValues
  decide +kernel

/-- Validity depends only on the bytes below SIZE (R64). -/
theorem Frame.isValid_congr {f : Frame} {m : Memory}
    (h : ∀ i < f.size.toNat, m.read i = f.pbuf.read i) :
    Frame.isValid { f with pbuf := m } = f.isValid := by
  have hpay : Frame.payload { f with pbuf := m } = f.payload := Memory.bytes_congr h
  rw [Frame.isValid, hpay]; rfl

/-- Settles O25: the opcode's one word, `isValid` as its two conditions, and the payload as the bytes below SIZE. -/
theorem isValidComparesThePayloadsChecksum : Obligations.IsValidComparesThePayloadsChecksum := by
  refine ⟨fun _ hc => decode_of_fixed_word (o := .fcIsValid) rfl hc, fun s => ?_,
    fun f m h => Frame.isValid_congr h⟩
  rw [exec_fcIsValid, boolResult_eq]
  simp only [Frame.isValid_eq_true_iff]
  rfl

/-- The payload with one byte written (R75). -/
theorem Memory.bytes_write {m : Memory} (hm : m.wf) (n i : Nat) (v : Byte) :
    (m.write i v).bytes n = (m.bytes n).set i v := by
  apply List.ext_getElem
  · simp
  · intro j _ _
    simp [Memory.bytes, Memory.read_write hm.1, List.getElem_set, eq_comm]

/-- A changed byte changes the checksum (R61). -/
theorem crc32_set_ne {l : List Byte} {i : Nat} (hi : i < l.length) {v : Byte} (hv : v ≠ l[i]) :
    crc32 (l.set i v) ≠ crc32 l := by
  intro h
  rw [List.set_eq_take_append_cons_drop, if_pos hi] at h
  conv at h => rhs; rw [← List.take_append_drop i l, List.drop_eq_getElem_cons hi]
  exact hv (crc32_of_one_byte h)

/-- PB_WRITE at an index of PBUF (R75). -/
theorem exec_pbWrite_of_ne {idx : Byte} (h : idx ≠ 255) (byte : Byte) (s : State) :
    exec (.pbWrite idx byte) s = .next (State.respond 0 { s with
      fc := { s.fc with pbuf := s.fc.pbuf.write idx.toNat byte } }) := by
  rw [exec, execPbWrite, pbufIndex?, if_neg h]

/-- A valid frame with one payload byte changed is not valid (R64). -/
theorem Frame.isValid_write_eq_false {f : Frame} (hw : f.pbuf.wf) (hf : f.isValid = true) {i : Nat}
    (hi : i < f.size.toNat) {v : Byte} (hv : v ≠ f.pbuf.read i) :
    Frame.isValid { f with pbuf := f.pbuf.write i v } = false := by
  have hcsum := ((Frame.isValid_eq_true_iff f).1 hf).2
  have hlen : i < f.payload.length := hi.trans_eq (Memory.bytes_length ..).symm
  rw [Bool.eq_false_iff, Ne, Frame.isValid_eq_true_iff, not_and]
  intro _ h
  refine crc32_set_ne hlen (v := v) (by simpa [Frame.payload, Memory.bytes] using hv) ?_
  rw [hcsum, Frame.payload, ← Memory.bytes_write hw]
  exact h

/-- Settles O34: the written byte changes the checksum of the payload, and nothing else that validity looks at. -/
theorem corruptedPayloadByteIsDetected : Obligations.CorruptedPayloadByteIsDetected := by
  intro s idx byte hw hvalid hi hne
  have h255 : idx ≠ 255 := by
    rintro rfl
    have hi : 255 < s.fc.size.toNat := hi
    have := s.fc.size.isLt
    omega
  refine ⟨_, _, exec_pbWrite_of_ne h255 byte s, ((Frame.isValid_eq_true_iff _).1 hvalid).1, rfl,
    exec_fcIsValid _, ?_⟩
  rw [State.respond_outputs, State.respond_fc, Frame.isValid_write_eq_false hw hvalid hi hne]
  rfl

/-! ### FC_BUILD and FC_SERIALIZE -/

/-- Settles O26: the opcode's mask, and FC_BUILD's two answers. -/
theorem buildMakesADoneFrame : Obligations.BuildMakesADoneFrame := by
  refine ⟨fun c hc => ⟨decode_of_mask .fcBuild hc, decode_of_not_mask .fcBuild hc⟩,
    fun len s => ⟨fun h => exec_fcBuild_of_ne_zero h s, ?_⟩⟩
  rintro rfl
  rfl

/-- Settles O29: outside DONE sink 0 is refused, in DONE it emits the wire stream. -/
theorem serializeToBitsEmitsTheWireStream : Obligations.SerializeToBitsEmitsTheWireStream := by
  refine fun s => ⟨exec_fcSerialize_bits_of_done, fun h => ?_⟩
  rw [exec, execFcSerialize, if_neg (by simp), if_pos (by simp [Frame.isDone, h])]
  rfl

/-- Settles O30: the command is the encoder over the wire stream, whose last bit is the checksum's lowest. -/
theorem serializeThroughTheEncoderCompletes : Obligations.SerializeThroughTheEncoderCompletes := by
  intro s rest hcfg hdone hb hc
  have hlen : 2 * (8 * s.preamble.bytes + 40 + 8 * s.fc.size.toNat) =
      2 * (s.fc.wireStream s.preamble).length := by
    rw [wireStream_length]; omega
  rw [hlen] at hc
  refine (exec_fcSerialize_line_eq hcfg hdone s.inputs).trans ?_
  rw [State.runEncoder_complete hc, wireStream_last, ← hb]

section Counts

variable (prev : Bool) (bits : List Bool)

/-- Two SLEEP requests per bit (R69). -/
theorem lineOutputs_countP_isSleep :
    (lineOutputs prev bits).countP Output.isSleep = 2 * bits.length := by
  induction bits generalizing prev with
  | nil => rfl
  | cons b bits ih =>
    rw [lineOutputs]
    split <;> simp [List.countP_cons, Output.isSleep, ih] <;> ring

/-- One SIG event per bit, and one more for each bit that equals the bit before it (R69). -/
theorem lineOutputs_countP_isSig : (lineOutputs prev bits).countP Output.isSig =
    bits.length + ((prev :: bits).zip bits).countP (fun x => x.1 == x.2) := by
  induction bits generalizing prev with
  | nil => rfl
  | cons b bits ih =>
    rw [lineOutputs, List.zip_cons_cons, List.countP_cons, List.length_cons]
    by_cases h : b = prev
    · rw [if_pos h, if_pos (beq_iff_eq.2 h.symm)]
      simp [List.countP_cons, Output.isSig, ih]
      omega
    · rw [if_neg h, if_neg fun he => h (beq_iff_eq.1 he).symm]
      simp [List.countP_cons, Output.isSig, ih]
      omega

/-- The encoder's outputs are SLEEP requests and SIG events (R69). -/
theorem lineOutputs_length : (lineOutputs prev bits).length =
    (lineOutputs prev bits).countP Output.isSleep + (lineOutputs prev bits).countP Output.isSig := by
  induction bits generalizing prev with
  | nil => rfl
  | cons b bits ih =>
    rw [lineOutputs]
    split <;> simp [List.countP_cons, Output.isSleep, Output.isSig, ih] <;> omega

end Counts

/-- Settles O31: the counts of SLEEPs and SIGs, of which a bit gives a second SIG at most once. -/
theorem encodedStreamEventCounts : Obligations.EncodedStreamEventCounts := by
  intro prev bits
  have hsleep := lineOutputs_countP_isSleep prev bits
  have hsig := lineOutputs_countP_isSig prev bits
  have hlen := lineOutputs_length prev bits
  have hrepeats : ((prev :: bits).zip bits).countP (fun x => x.1 == x.2) ≤ bits.length :=
    List.countP_le_length.trans (by simp)
  refine ⟨hsleep, hsig, by omega, by omega, hlen, by omega, by omega, ?_⟩
  rw [endTime_lineOutputs, Nat.zero_add, Nat.mul_one]

end Sys2Proof.Machine

/-! Obligations of the Manchester family: MC_CONFIG and MC_ENCODE_BIT (O38, O39), the classifier's bands (O43), and the
encoder's own edges under the classifier (O49). -/

namespace Sys2Proof.Machine

/-! ### The interval classifier -/

/-- Settles O43: the bands of the multiplier and of the three classes, and their numbers for the rule's H and S. -/
theorem classifierBands : Obligations.ClassifierBands := by
  intro m elapsed hH
  have hdesync := Mlc.class_desync_iff hH
  have hskip := Mlc.class_skip_iff hH
  have hdata := Mlc.class_data_iff hH
  refine ⟨Mlc.multiplier_eq_iff hH elapsed, hdesync elapsed, hskip elapsed, hdata elapsed,
    fun hratio => ⟨?_, ?_⟩, fun hh hs => ?_⟩
  · rw [hdesync]; omega
  · rw [hskip]; omega
  · have hh' : m.halfPeriod.toNat = 1000 := by rw [hh]; rfl
    have hs' : m.sensitivity.toNat = 600 := by rw [hs]; rfl
    simp only [hdesync, hskip, hdata, hh', hs']
    decide

/-- The distance from LAST_TS of an edge whose time fits a timestamp (R73, D11). -/
theorem Mlc.elapsed_ofNat (m : Mlc) {t : Nat} (ht : t < 2 ^ 64) :
    m.elapsed (BitVec.ofNat 64 t) = (t : Int) - m.lastTs.toNat := by
  rw [Mlc.elapsed, BitVec.toNat_ofNat, Nat.mod_eq_of_lt ht]

/-! ### The encoder's edges on an ideal line -/

/-- R106: a bit's boundary SIG, if any, comes at its start, its data SIG a half-period later, and the next bit another
half-period later. -/
theorem timeline_lineOutputs_cons (h t : Nat) (prev b : Bool) (bits : List Bool) :
    Env.timeline h t (lineOutputs prev (b :: bits)) =
      (if b = prev then [(t, .sig (!b))] else []) ++ [(t, .sleep), (t + h, .sig b), (t + h, .sleep)] ++
        Env.timeline h (t + 2 * h) (lineOutputs b bits) := by
  have hend : t + h + h = t + 2 * h := by omega
  rw [lineOutputs]
  split <;> simp only [List.cons_append, List.nil_append, Env.timeline, hend]

/-- R87: with the line at PREV a bit makes a data edge a half-period after its start, and a boundary edge at its start
if it equals PREV; the line is then at the bit. -/
theorem lineEdges_lineOutputs_cons (h t : Nat) (prev b : Bool) (bits : List Bool) :
    Env.lineEdges prev (Env.timeline h t (lineOutputs prev (b :: bits))) =
      (if b = prev then [(Direction.ofBit (!b), t)] else []) ++ (Direction.ofBit b, t + h) ::
        Env.lineEdges b (Env.timeline h (t + 2 * h) (lineOutputs b bits)) := by
  rw [timeline_lineOutputs_cons]
  by_cases hb : b = prev
  · subst hb
    simp [Env.lineEdges]
  · simp [Env.lineEdges, hb]

/-- The edges of two bits of which the first differs from PREV (R69, R87). -/
theorem lineEdges_two_bits (h t : Nat) (a b : Bool) :
    Env.lineEdges (!a) (Env.timeline h t (lineOutputs (!a) [a, b])) = (Direction.ofBit a, t + h) ::
      ((if b = a then [(Direction.ofBit (!b), t + 2 * h)] else []) ++ [(Direction.ofBit b, t + 3 * h)]) := by
  have hdata : t + 2 * h + h = t + 3 * h := by omega
  rw [lineEdges_lineOutputs_cons, lineEdges_lineOutputs_cons, if_neg (by simp), List.nil_append, hdata]
  rfl

/-- Settles O49: the next edge comes 2·H after the first data edge, inside the SKIP band, or H after it, inside the
first DATA band. -/
theorem encodedEdgesAreMisread : Obligations.EncodedEdgesAreMisread := by
  intro h t0 a b m hm h0 hS hSh hsync hlast ht
  have hH : m.halfPeriod ≠ 0 := fun hz => h0 (by rw [← hm, hz]; rfl)
  refine ⟨fun hab => ⟨?_, ?_⟩, ?_⟩
  · rw [lineEdges_two_bits, if_neg (Ne.symm hab), List.nil_append]
  · rw [Mlc.classify_of_synchronized hsync, Mlc.class_skip_iff hH, Mlc.elapsed_ofNat m ht]
    omega
  · rintro rfl
    refine ⟨?_, ?_⟩
    · rw [lineEdges_two_bits, if_pos rfl, List.singleton_append]
    · rw [Mlc.classify_of_synchronized hsync, Mlc.class_data_iff hH, Mlc.elapsed_ofNat m (by omega)]
      omega

/-! ### MC_CONFIG and MC_ENCODE_BIT -/

/-- Two operands of 32 bits, the first not 0, construct the codec (R68). -/
theorem exec_mcConfig_of_fits {x y : DWord} (hx : x.toNat < 2 ^ 32) (hy : y.toNat < 2 ^ 32) (h0 : x ≠ 0)
    (s : State) :
    exec (.mcConfig x y) s =
      .next ({ s with mlc := ⟨low32 x, low32 y, false, false, 0, true, s.mlc.ordErr⟩ }.respond 0) := by
  have hfit : ¬ (fits32 x = false ∨ fits32 y = false) := by
    rw [fits32_eq_false_iff, fits32_eq_false_iff]
    omega
  have hlow : low32 x ≠ 0 := by
    rw [Ne, low32_eq_zero_iff, Nat.mod_eq_of_lt hx]
    exact fun hz => h0 (BitVec.eq_of_toNat_eq hz)
  rw [exec, execMcConfig, if_neg hfit, if_neg hlow]

/-- Settles O38: the opcode's one word, the construction, and the two refusals in their order. -/
theorem configConstructsTheCodec : Obligations.ConfigConstructsTheCodec := by
  refine ⟨fun c hc => decode_of_fixed_word (o := .mcConfig) rfl hc,
    fun x y s => ⟨fun hx hy h0 => ?_, exec_mcConfig_wide, ?_⟩⟩
  · rw [exec_mcConfig_of_fits hx hy h0, low32_eq, low32_eq]
    rfl
  · rintro rfl hy
    exact exec_mcConfig_zero (Nat.not_le.2 hy)

/-- Settles O39: the command is the encoder over its one bit, with both requests completed. -/
theorem encodeBitEmitsItsBitPeriod : Obligations.EncodeBitEmitsItsBitPeriod := by
  intro b s rest hcfg hb hc
  refine (exec_mcEncodeBit_eq hcfg b s.inputs).trans ?_
  rw [State.runEncoder_complete (bits := [b]) hc, ← hb]
  simp [lineOutputs]

end Sys2Proof.Machine

/-! Obligations of the host access family: PB_WRITE (O50) and PB_READ (O51). -/

namespace Sys2Proof.Machine

/-- PB_READ at an index of PBUF (R76). -/
theorem exec_pbRead_of_ne {idx : Byte} (h : idx ≠ 255) (s : State) :
    exec (.pbRead idx) s = .next (s.respond ((s.fc.pbuf.read idx.toNat).setWidth 64)) := by
  rw [exec, execPbRead, pbufIndex?, if_neg h]

/-- Settles O50: the decoder's two answers for the opcode's mask, the buffer as the write leaves it, and the refusal of
index 255. -/
theorem payloadWriteStoresOneByte : Obligations.PayloadWriteStoresOneByte := by
  refine ⟨fun c hc => ⟨decode_of_mask .pbWrite hc, decode_of_not_mask .pbWrite hc⟩,
    fun idx byte s hw => ⟨fun h => ?_, ?_⟩⟩
  · have hread := Memory.read_write hw.1 idx.toNat byte
    exact ⟨s.fc.pbuf.write idx.toNat byte, exec_pbWrite_of_ne h byte s, (hread _).trans (if_pos rfl),
      fun j hj => (hread j).trans (if_neg hj), Memory.write_wf hw (byte_lt_255 h) byte⟩
  · rintro rfl
    exact operandErrorsAreAnswered (.pbWrite 255 byte) .badArg s rfl

/-- Settles O51: the decoder's two answers for the opcode's mask, the byte widened to the result word, and the refusal
of index 255. -/
theorem payloadReadReturnsTheByte : Obligations.PayloadReadReturnsTheByte := by
  refine ⟨fun c hc => ⟨decode_of_mask .pbRead hc, decode_of_not_mask .pbRead hc⟩,
    fun idx s => ⟨fun h => ?_, ?_⟩⟩
  · rw [BitVec.ofNat_toNat]
    exact exec_pbRead_of_ne h s
  · rintro rfl
    exact operandErrorsAreAnswered (.pbRead 255) .badArg s rfl

end Sys2Proof.Machine

/-! Obligations of the exceptions family: errors and their priority (O15, O16), the product of instances (O56), and the
idle block (O11). -/

namespace Sys2Proof.Machine

/-! ### A command answered with an error -/

/-- Settles O15: a command that responds last with an error has raised it, by its `Summary`; a blocked one ends in a
SLEEP. -/
theorem errorsWriteNothing : Obligations.ErrorsWriteNothing := by
  intro s t c rest r hb hi h hl hne
  rw [step_command hb hi] at h
  obtain ⟨events, -, ⟨-, r', ho, herr⟩ | ⟨-, hsleep, ho⟩⟩ := (runCommand_summary h).outputs
  · rw [ho, List.getLast?_concat] at hl
    cases hl
    obtain ⟨hres, ht⟩ := herr hne
    exact ⟨hres, ht.trans (by rw [State.raise, ← hres]; rfl)⟩
  · rw [ho, List.getLast?_append, hsleep] at hl
    cases hl

/-! ### Which error a command is answered with -/

/-- The two causes that R78 finds in a command word are the decoder's two refusals (R50). -/
theorem errorApplies_rejectStatus_iff {c : Command} {s : State} (d : DecodeError) :
    ErrorApplies c s (rejectStatus d) ↔ decode c = .error d := by
  constructor
  · obtain ⟨hillegal, hrow⟩ := decoderTakesItsChecksInOrder c
    cases d with
    | illegalOpcode => exact hillegal
    | reservedField => exact fun ⟨row, hr, hopc, hne⟩ => (hrow row hr hopc).1 hne
  · intro hd
    obtain ⟨hno, h⟩ | ⟨o, ho, hm, h⟩ | ⟨o, -, -, h⟩ := decode_cases c <;> rw [h] at hd <;> cases hd
    · intro row hr
      obtain ⟨o, rfl⟩ := row_of_opcode hr
      exact hno o
    · exact ⟨_, opcode_row o, ho, ho ▸ hm⟩

/-- A command word with one of these causes is answered with it (R50, R80). -/
theorem runCommand_of_word_error {c : Command} {s : State} (d : DecodeError)
    (h : ErrorApplies c s (rejectStatus d)) : runCommand c s = .next (s.raise (rejectStatus d)) := by
  rw [runCommand, (errorApplies_rejectStatus_iff d).1 h]

/-- The R bit of FC_SERIALIZE selects the encoder exactly when it is 1 (R66). -/
theorem sink_ofBit_eq_line_iff {b : Bool} : Sink.ofBit b = .line ↔ b = true := by cases b <;> simp [Sink.ofBit]

section Accepted

variable {s : State} {c : Command} {i : Instr} (hd : decode c = .ok i)
include hd

/-- An accepted command is its opcode's operation (R49). -/
theorem decode_ok_of_opc (o : Opcode) (ho : c.opc = o.code) : i = o.instr c := by
  obtain ⟨o', ho', -, rfl⟩ := decode_ok hd
  rw [opcode_code_injective (ho'.trans ho)]

/-- E_BAD_ARG is answered whatever other error applies to an accepted command (R80). -/
theorem exec_of_badArg (h : ErrorApplies c s .badArg) : exec i s = .next (s.raise .badArg) := by
  obtain ⟨ho, h⟩ | ⟨ho, ha⟩ | ⟨ho, ha⟩ | ⟨ho, ha⟩ | ⟨ho, h⟩ := h
  · rw [decode_ok_of_opc hd .mcConfig ho]
    exact exec_mcConfig_wide h
  · rw [decode_ok_of_opc hd .fcBuild ho, Opcode.instr, ha]
    exact operandErrorsAreAnswered (.fcBuild 0) .badArg s rfl
  · rw [decode_ok_of_opc hd .pbWrite ho, Opcode.instr, ha]
    exact operandErrorsAreAnswered (.pbWrite 255 c.d) .badArg s rfl
  · rw [decode_ok_of_opc hd .pbRead ho, Opcode.instr, ha]
    exact operandErrorsAreAnswered (.pbRead 255) .badArg s rfl
  · rw [decode_ok_of_opc hd .regRead ho]
    exact exec_regRead_reserved h

/-- E_NOT_CONFIGURED is answered also where E_BAD_STATE applies (R80). -/
theorem exec_of_notConfigured (h : ErrorApplies c s .notConfigured) :
    exec i s = .next (s.raise .notConfigured) := by
  obtain ⟨ho | ho | ⟨ho, hr⟩, hc⟩ := h
  · rw [decode_ok_of_opc hd .mcEncodeBit ho]
    exact exec_of_not_configured hc (.inl ⟨_, rfl⟩)
  · rw [decode_ok_of_opc hd .mcDecodeEdge ho]
    exact exec_of_not_configured hc (.inr (.inl ⟨_, _, _, rfl⟩))
  · rw [decode_ok_of_opc hd .fcSerialize ho, Opcode.instr, hr]
    exact exec_of_not_configured hc (.inr (.inr rfl))

/-- FC_SERIALIZE outside DONE, with a configured encoder where it needs one (R66, R80). -/
theorem exec_of_badState (h : ErrorApplies c s .badState) (hn : ¬ ErrorApplies c s .notConfigured) :
    exec i s = .next (s.raise .badState) := by
  obtain ⟨ho, hst⟩ := h
  have hcfg : ¬ (Sink.ofBit c.r = .line ∧ s.mlc.cfgOk = false) := fun ⟨hl, hc⟩ =>
    hn ⟨.inr (.inr ⟨ho, sink_ofBit_eq_line_iff.1 hl⟩), hc⟩
  have hdone : s.fc.isDone = false := Bool.eq_false_iff.2 (mt (Frame.isDone_iff _).1 hst)
  rw [decode_ok_of_opc hd .fcSerialize ho, Opcode.instr, exec, execFcSerialize, if_neg hcfg, if_pos hdone]

/-- MC_CONFIG with the half-period 0, once its operands fit (R68, R80). -/
theorem exec_of_configInvalid (h : ErrorApplies c s .configInvalid)
    (hn : ¬ ErrorApplies c s .badArg) : exec i s = .next (s.raise .configInvalid) := by
  obtain ⟨ho, hz⟩ := h
  obtain ⟨hx, hy⟩ := not_or.1 fun hw => hn (.inl ⟨ho, hw⟩)
  have h0 : c.opa = 0 := (eq_zero_iff_toNat _).2 (by omega)
  rw [decode_ok_of_opc hd .mcConfig ho, Opcode.instr, h0]
  exact exec_mcConfig_zero hy

end Accepted

section LowestError

variable {s : State} {c : Command} {e : Status}
  (hlow : ∀ e', e'.code.toNat < e.code.toNat → ¬ ErrorApplies c s e')
include hlow

/-- An error behind the decoder's two refusals is the lowest only of an accepted command (R78, R80). -/
theorem decode_ok_of_lowest_error (h2 : 2 < e.code.toNat) : ∃ i, decode c = .ok i := by
  cases hd : decode c with
  | ok i => exact ⟨i, rfl⟩
  | error d =>
    have hle : (rejectStatus d).code.toNat ≤ 2 := by cases d <;> decide
    exact absurd ((errorApplies_rejectStatus_iff d).2 hd) (hlow _ (by omega))

/-- Of the errors that apply to a command the lowest-numbered is raised (R80). -/
theorem runCommand_of_lowest_error (he : ErrorApplies c s e) :
    runCommand c s = .next (s.raise e) := by
  have hok := decode_ok_of_lowest_error hlow
  cases e with
  | ok => exact he.elim
  | illegalOpcode => exact runCommand_of_word_error .illegalOpcode he
  | reservedField => exact runCommand_of_word_error .reservedField he
  | badArg =>
    obtain ⟨i, hd⟩ := hok (by decide)
    exact (runCommand_of_decode hd).trans (exec_of_badArg hd he)
  | notConfigured =>
    obtain ⟨i, hd⟩ := hok (by decide)
    exact (runCommand_of_decode hd).trans (exec_of_notConfigured hd he)
  | badState =>
    obtain ⟨i, hd⟩ := hok (by decide)
    exact (runCommand_of_decode hd).trans (exec_of_badState hd he (hlow .notConfigured (by decide)))
  | configInvalid =>
    obtain ⟨i, hd⟩ := hok (by decide)
    exact (runCommand_of_decode hd).trans (exec_of_configInvalid hd he (hlow .badArg (by decide)))

end LowestError

/-! ### What a command answers when no error applies -/

/-- The ways a command can end (R53, R78): it raises an error that applies to it, responds OK, or runs the encoder. -/
inductive Ends (c : Command) (s t : State) : Prop
  | raise {e : Status} (ht : t = s.raise e) (he : ErrorApplies c s e)
  | respond {u : State} {r : DWord} (ht : t = u.respond r)
  | line {ops : List LineOp} (ht : t = runLine ops s)

section Ends

variable {s t : State} {c : Command}

/-- An accepted command raises no error but one that applies to it (R78). -/
theorem exec_ends {i : Instr} (hd : decode c = .ok i) (h : exec i s = .next t) : Ends c s t := by
  obtain ⟨o, ho, -, rfl⟩ := decode_ok hd
  have ho := ho.symm
  cases o with
  | fcConsumeBit => exact .respond (exec_fcConsumeBit_next h).2
  | fcReset => exact .respond (exec_fcReset_next h)
  | fcIsValid => exact .respond (exec_fcIsValid_next h)
  | fcBuild =>
    obtain ⟨ha, ht⟩ | ⟨-, ht⟩ := exec_fcBuild_next h
    · exact .raise ht (.inr (.inl ⟨ho, ha⟩))
    · exact .respond ht
  | fcSerialize =>
    obtain ⟨hl, hc, ht⟩ | ⟨hdone, ht⟩ | ⟨-, -, ht⟩ | ⟨-, -, -, ht⟩ := exec_fcSerialize_next h
    · exact .raise ht ⟨.inr (.inr ⟨ho, sink_ofBit_eq_line_iff.1 hl⟩), hc⟩
    · exact .raise ht ⟨ho, mt (Frame.isDone_iff _).2 (Bool.eq_false_iff.1 hdone)⟩
    · exact .respond ht
    · exact .line ht
  | mcConfig =>
    obtain ⟨hw, ht⟩ | ⟨-, -, hz, ht⟩ | ⟨-, -, -, ht⟩ := exec_mcConfig_next h
    · exact .raise ht (.inl ⟨ho, hw.imp (fits32_eq_false_iff _).1 (fits32_eq_false_iff _).1⟩)
    · exact .raise ht ⟨ho, (low32_eq_zero_iff _).1 hz⟩
    · exact .respond ht
  | mcEncodeBit =>
    obtain ⟨hc, ht⟩ | ⟨-, ht⟩ := exec_mcEncodeBit_next h
    · exact .raise ht ⟨.inl ho, hc⟩
    · exact .line ht
  | mcDecodeEdge =>
    obtain ⟨hc, ht⟩ | ⟨-, -, ⟨-, -, ht⟩ | ⟨-, -, -, ht⟩ | ⟨-, ht⟩⟩ := exec_mcDecodeEdge_next h
    · exact .raise ht ⟨.inr (.inl ho), hc⟩
    · exact .respond ht
    · exact .respond ht
    · exact .respond ht
  | pbWrite =>
    obtain ⟨ha, ht⟩ | ⟨-, ht⟩ := exec_pbWrite_next h
    · exact .raise ht (.inr (.inr (.inl ⟨ho, ha⟩)))
    · exact .respond ht
  | pbRead =>
    obtain ⟨ha, ht⟩ | ⟨-, ht⟩ := exec_pbRead_next h
    · exact .raise ht (.inr (.inr (.inr (.inl ⟨ho, ha⟩))))
    · exact .respond ht
  | regRead =>
    obtain ⟨hsel, ht⟩ | ⟨r, -, ht⟩ := exec_regRead_next h
    · exact .raise ht (.inr (.inr (.inr (.inr ⟨ho, (ofSelector?_eq_none_iff _).1 hsel⟩))))
    · exact .respond ht

/-- A rejected word, too, is answered with an error that applies to it (R50, R78). -/
theorem runCommand_ends (h : runCommand c s = .next t) : Ends c s t := by
  obtain ⟨d, hd, ht⟩ | ⟨i, hd, hi⟩ := runCommand_cases h
  · exact .raise ht ((errorApplies_rejectStatus_iff d).2 hd)
  · exact exec_ends hd hi

/-- The encoder's last output is an OK response or a SLEEP (R69). -/
theorem runLine_getLast?_ok {ops : List LineOp} {r : Response}
    (h : (runLine ops s).outputs.getLast? = some (.response r)) : r.st = .ok := by
  obtain ⟨p, is, ev, -, -, hrun | ⟨rest, -, -, hsleep, hrun⟩⟩ := runLine_cases ops s <;> rw [hrun] at h
  · rw [List.getLast?_concat] at h
    cases h
    rfl
  · rw [List.getLast?_append, hsleep] at h
    cases h

/-- A command to which no error applies is not answered with one (R78). -/
theorem Ends.getLast?_ok (h : Ends c s t) (hno : ∀ e, ¬ ErrorApplies c s e) {r : Response}
    (hl : t.outputs.getLast? = some (.response r)) : r.st = .ok := by
  cases h with
  | raise _ he => exact absurd he (hno _)
  | respond ht =>
    rw [ht, State.respond_outputs, List.getLast?_concat] at hl
    cases hl
    rfl
  | line ht => exact runLine_getLast?_ok (ht ▸ hl)

end Ends

/-- Settles O16: the step runs the command with itself taken from the inputs, on which no error of R78 depends. -/
theorem lowestApplicableErrorIsTheResponse : Obligations.LowestApplicableErrorIsTheResponse := by
  intro s c rest hb hi
  rw [step_command hb hi]
  exact ⟨fun e he hlow => runCommand_of_lowest_error (s := { s with inputs := rest }) hlow he,
    fun hno t r h => (runCommand_ends h).getLast?_ok hno⟩

/-! ### Several instances -/

/-- The next state at place k of a list of instances, if there is such a place and its step answers one. -/
def Env.nextOfInstance (k : Nat) (system : List State) : Option State :=
  system[k]?.bind fun s => nextState? (step s)

theorem nextState?_eq_some_iff {o : Host.Outcome State Fault Refusal} {t : State} :
    nextState? o = some t ↔ o = .next t := by
  cases o <;> simp [nextState?]

theorem Env.nextOfInstance_eq_some_iff {k : Nat} {system : List State} {t : State} :
    Env.nextOfInstance k system = some t ↔ ∃ s, system[k]? = some s ∧ step s = .next t := by
  simp only [Env.nextOfInstance, Option.bind_eq_some_iff, nextState?_eq_some_iff]

/-- A system's step at place k puts the next state there in its place (R90). -/
theorem Env.stepInstance_eq (k : Nat) (system : List State) :
    Env.stepInstance k system = (Env.nextOfInstance k system).map (system.set k) := by
  rw [Env.stepInstance, Env.nextOfInstance]
  cases system[k]? <;> rfl

/-- The next state at a place does not depend on another place (R90). -/
theorem Env.nextOfInstance_set {j k : Nat} (h : j ≠ k) (system : List State) (t : State) :
    Env.nextOfInstance k (system.set j t) = Env.nextOfInstance k system := by
  rw [Env.nextOfInstance, List.getElem?_set_ne h, Env.nextOfInstance]

/-- Two instances stepped one after the other: both next states are those of the system before (R90). -/
theorem Env.stepInstance_bind {j k : Nat} (h : j ≠ k) (system : List State) :
    (Env.stepInstance j system).bind (Env.stepInstance k) =
      (Env.nextOfInstance j system).bind fun t =>
        (Env.nextOfInstance k system).map fun u => (system.set j t).set k u := by
  rw [Env.stepInstance_eq, Option.bind_map]
  refine congrArg _ (funext fun t => ?_)
  rw [Function.comp_apply, Env.stepInstance_eq, Env.nextOfInstance_set h]

/-- The steps of two instances can be taken in either order, also where one of them has none (R90). -/
theorem Env.stepInstance_comm {j k : Nat} (h : j ≠ k) (system : List State) :
    (Env.stepInstance j system).bind (Env.stepInstance k) =
      (Env.stepInstance k system).bind (Env.stepInstance j) := by
  rw [Env.stepInstance_bind h, Env.stepInstance_bind h.symm]
  cases Env.nextOfInstance j system <;> cases Env.nextOfInstance k system <;>
    simp [List.set_comm _ _ h]

/-- The place that steps is the only one that changes (R90). -/
theorem getElem?_set_of_getElem? {system : List State} {k : Nat} {s : State} (hs : system[k]? = some s)
    (t : State) :
    (system.set k t)[k]? = some t ∧ ∀ j, j ≠ k → (system.set k t)[j]? = system[j]? := by
  obtain ⟨hk, -⟩ := List.getElem?_eq_some_iff.1 hs
  exact ⟨List.getElem?_set_self hk, fun j hj => List.getElem?_set_ne hj.symm⟩

/-- Settles O56: a system's step at k puts the next state at place k, and commutes with the step at another place. -/
theorem instancesShareNothing : Obligations.InstancesShareNothing := by
  refine ⟨fun system k s t hs ht => ?_, fun system next k h => ?_,
    fun system j k h => Env.stepInstance_comm h system⟩
  · obtain ⟨hk, hrest⟩ := getElem?_set_of_getElem? hs t
    have hnext := Env.nextOfInstance_eq_some_iff.2 ⟨s, hs, ht⟩
    exact ⟨system.set k t, by rw [Env.stepInstance_eq, hnext, Option.map_some], hk, List.length_set, hrest⟩
  · rw [Env.stepInstance_eq, Option.map_eq_some_iff] at h
    obtain ⟨t, hnext, rfl⟩ := h
    obtain ⟨s, hs, ht⟩ := Env.nextOfInstance_eq_some_iff.1 hnext
    exact ⟨s, t, hs, ht, getElem?_set_of_getElem? hs t⟩

/-! ### The idle block -/

/-- With no command blocked and nothing sent to it the block waits (R92, R94). -/
theorem step_of_idle {s : State} (hb : s.blocked = none) (hi : s.inputs = []) : step s = .next s := by
  rw [step, State.fetch, hb, hi]

/-- Settles O11: the reset values are the fields of `State.reset`, and that state is idle. -/
theorem resetStateWaitsForItsFirstCommand : Obligations.ResetStateWaitsForItsFirstCommand :=
  ⟨rfl, rfl, rfl, step_of_idle rfl rfl, fun _ => step_of_idle⟩

end Sys2Proof.Machine

/-! Obligations of the reset and hazards family: the encoder's timing (O32, O48) and a Frame in DONE (O35). -/

namespace Sys2Proof.Machine

/-! ### The encoder's timing -/

/-- Settles O32: every bit on the wire takes two half-periods. -/
theorem encodedFrameDuration : Obligations.EncodedFrameDuration := by
  intro h t0 prev p f
  have hlen : (f.wireStream p).length = 8 * p.bytes + 40 + 8 * f.size.toNat := by
    rw [wireStream_length]
    omega
  rw [endTime_lineOutputs, hlen]

/-- Settles O48: the first bit's period leads the timeline, and every bit takes two half-periods. -/
theorem bitPeriodTimeline : Obligations.BitPeriodTimeline := by
  refine fun h t0 prev b bits => ⟨timeline_lineOutputs_cons h t0 prev b bits, ?_⟩
  rw [endTime_lineOutputs, List.length_cons]

/-! ### A Frame in DONE -/

/-- FC_CONSUME_BIT in DONE only answers 1 (R62, R101). -/
theorem exec_fcConsumeBit_of_done {s : State} (h : s.fc.stage = .done) (b : Bool) :
    exec (.fcConsumeBit b) s = .next (s.respond 1) := by
  have hv : s.fc.overrun = false := by rw [Frame.overrun, h]
  have hr : boolResult s.fc.isDone = 1 := by rw [(Frame.isDone_iff _).2 h]; rfl
  rw [exec_fcConsumeBit_of_no_overrun hv, Frame.consumeBit_of_done _ h, hr]

/-- Settles O35, by induction on the bits: each one adds its response, and the Frame is still in DONE. -/
theorem doneFrameIgnoresBits : Obligations.DoneFrameIgnoresBits := by
  intro bits
  induction bits with
  | nil => intro s _ _; simp [Env.issue]
  | cons b bits ih =>
    intro s hdone hb
    have hrest := ih (s.respond 1) hdone hb
    rw [State.respond_outputs, List.append_assoc] at hrest
    rw [List.map_cons, Env.issue, exec_fcConsumeBit_of_done hdone]
    exact (if_pos hb).trans hrest

end Sys2Proof.Machine
